-- ==== Sys2Proof/Word.lean ====
section
/-! DEFINITION. The word types: the 8-bit byte of a register, a memory cell, an operand byte and an immediate
(R4 XLEN, R6), the 9-bit program counter (R16), and the index of a register (R11). -/

namespace Sys2Proof

/-- An 8-bit value, unsigned (R6): a register, a memory cell, an opcode, an operand byte, an immediate. -/
abbrev Byte := BitVec 8

/-- The value of the program counter: 9 bits (R16, D7). -/
abbrev PcWord := BitVec 9

/-- The index of a general register, 0 to 7 (R11). -/
abbrev RegIdx := Fin 8

end Sys2Proof
end

