-- ==== Sys2Proof/Config.lean ====
section
/-! DEFINITION. The implementation parameters of R4, the names of the 25 instructions and the four formats of R47.
The opcode byte table `opc` (the parameter OPC) and `hasDivMod` (the parameter HAS_DIVMOD) stand in Decode.lean.
The spec leaves no value free, so there is no opaque constant here. -/

namespace Sys2Proof

namespace Config

/-- `MEM_SIZE`, the number of one-byte memory cells (R4, R30, D4). -/
def memSize : Nat := 256

/-- `SP`, the index of the stack-pointer register (R4, R12). -/
def sp : RegIdx := 7

/-- `SP_RESET`, the reset value of register 7 (R4, R27). -/
def spReset : Byte := 0xF4

end Config

/-- The names of the 25 recognised instructions (R50): the keys of the opcode table, with no operands. -/
inductive Mnemonic where
  | nop | hlt | ret
  | push | pop | prn | call | jmp | jeq | jne | inc | dec | not
  | ldi
  | add | sub | mul | div | mod | cmp | and | or | xor | shl | shr
  deriving DecidableEq, Repr

/-- The four instruction formats (R47): no operand, one register, two registers, register and immediate. -/
inductive Format where
  | z | r | rr | ri
  deriving DecidableEq, Repr

end Sys2Proof
end

