-- ==== Sys2Proof/Syntax.lean ====
section
/-! DEFINITION. The instructions, one constructor per row of spec/opcode_table.json. A register operand is the whole
operand byte (R48): a byte above 7 is still a recognised instruction, which faults when it runs (R51, R14), so the
range check is the machine's (Machine/Operands.lean) and `Instr.wellFormed` (WellFormed.lean) names the good ones. -/

namespace Sys2Proof

/-- An instruction of R50 with its operand bytes (R47): `r`, `a`, `b` are register operand bytes, `imm` is LDI's
immediate byte. -/
inductive Instr where
  | nop
  | hlt
  | ret
  | push (r : Byte)
  | pop (r : Byte)
  | prn (r : Byte)
  | call (r : Byte)
  | jmp (r : Byte)
  | jeq (r : Byte)
  | jne (r : Byte)
  | inc (r : Byte)
  | dec (r : Byte)
  | not (r : Byte)
  | ldi (r imm : Byte)
  | add (a b : Byte)
  | sub (a b : Byte)
  | mul (a b : Byte)
  | div (a b : Byte)
  | mod (a b : Byte)
  | cmp (a b : Byte)
  | and (a b : Byte)
  | or (a b : Byte)
  | xor (a b : Byte)
  | shl (a b : Byte)
  | shr (a b : Byte)
  deriving DecidableEq, Repr

end Sys2Proof
end

