-- ==== Sys2Proof/WellFormed.lean ====
section
/-! DEFINITION. Which instructions are well formed: every register operand byte names one of the 8 registers
(R14, R48). An instruction that is not is still decoded, and faults with OutOfBounds when it runs (R51). -/

namespace Sys2Proof

/-- A register operand byte names a register: 0 to 7 (R14; the upper bits are neither ignored nor masked, R48). -/
def isRegByte (b : Byte) : Bool := decide (b.toNat < 8)

/-- Every register operand byte of the instruction's format names a register. LDI's immediate is any byte (R48). -/
def Instr.wellFormed : Instr → Bool
  | .nop => true
  | .hlt => true
  | .ret => true
  | .push r => isRegByte r
  | .pop r => isRegByte r
  | .prn r => isRegByte r
  | .call r => isRegByte r
  | .jmp r => isRegByte r
  | .jeq r => isRegByte r
  | .jne r => isRegByte r
  | .inc r => isRegByte r
  | .dec r => isRegByte r
  | .not r => isRegByte r
  | .ldi r _ => isRegByte r
  | .add a b => isRegByte a && isRegByte b
  | .sub a b => isRegByte a && isRegByte b
  | .mul a b => isRegByte a && isRegByte b
  | .div a b => isRegByte a && isRegByte b
  | .mod a b => isRegByte a && isRegByte b
  | .cmp a b => isRegByte a && isRegByte b
  | .and a b => isRegByte a && isRegByte b
  | .or a b => isRegByte a && isRegByte b
  | .xor a b => isRegByte a && isRegByte b
  | .shl a b => isRegByte a && isRegByte b
  | .shr a b => isRegByte a && isRegByte b

end Sys2Proof
end

