-- ==== Sys2Proof/Decode.lean ====
section
/-! DEFINITION. The opcode table (R50), dispatch (R63), the decoder and, after it, the encoder (R57). The decoder is
total and rejects by name. Every later definition reaches an opcode byte value only through `opc`, so that the rest of
the model stands whatever the values are (D1, log 1). -/

namespace Sys2Proof

/-! ## The opcode table -/

/-- The parameter OPC: the opcode byte of each instruction, R50's column of values. UNVERIFIED (log 1): the spec itself
takes these bytes from general knowledge under decision D1; the source gives none. -/
def opc : Mnemonic → Byte
  | .nop => 0x00
  | .hlt => 0x01
  | .ret => 0x11
  | .push => 0x45
  | .pop => 0x46
  | .prn => 0x47
  | .call => 0x50
  | .jmp => 0x54
  | .jeq => 0x55
  | .jne => 0x56
  | .inc => 0x65
  | .dec => 0x66
  | .not => 0x69
  | .ldi => 0x82
  | .add => 0xA0
  | .sub => 0xA1
  | .mul => 0xA2
  | .div => 0xA3
  | .mod => 0xA4
  | .cmp => 0xA7
  | .and => 0xA8
  | .or => 0xAA
  | .xor => 0xAB
  | .shl => 0xAC
  | .shr => 0xAD

/-- The parameter HAS_DIVMOD (R4): DIV and MOD are in the dispatch table. UNVERIFIED (log 2): decision D2. -/
def hasDivMod : Bool := true

/-- The 25 instructions in the order of R50. -/
def allMnemonics : List Mnemonic :=
  [.nop, .hlt, .ret, .push, .pop, .prn, .call, .jmp, .jeq, .jne, .inc, .dec, .not, .ldi, .add, .sub, .mul, .div, .mod,
    .cmp, .and, .or, .xor, .shl, .shr]

/-- The instruction is in the dispatch table: all are, DIV and MOD by the parameter HAS_DIVMOD. -/
def inTable (m : Mnemonic) : Bool :=
  if m = .div ∨ m = .mod then hasDivMod else true

/-- Dispatch of an opcode byte (R63): all 8 bits and nothing else select the instruction; `none` for the 231 other
values (R51). -/
def dispatch (ir : Byte) : Option Mnemonic := allMnemonics.find? fun m => inTable m && opc m == ir

/-- The format of an instruction (R47). -/
def Mnemonic.format : Mnemonic → Format
  | .nop | .hlt | .ret => .z
  | .push | .pop | .prn | .call | .jmp | .jeq | .jne | .inc | .dec | .not => .r
  | .ldi => .ri
  | .add | .sub | .mul | .div | .mod | .cmp | .and | .or | .xor | .shl | .shr => .rr

/-- The number of bytes of a format (R47). The width comes from the table, never from bits of the opcode (R49). -/
def Format.length : Format → Nat
  | .z => 1
  | .r => 2
  | .rr => 3
  | .ri => 3

/-! ## The decoder -/

/-- Why bytes are rejected. -/
inductive DecodeError where
  /-- The first byte is none of the table's opcodes (R51). The engine takes the UnknownOpcode fault for it. -/
  | unknownOpcode (ir : Byte)
  /-- A byte list ends before the instruction does (DESIGN CHOICE, log 20: the engine always fetches three bytes, so
  only `decode` on a short list answers this, never a cycle). -/
  | truncated
  deriving DecidableEq, Repr

/-- The instruction of a table entry with the operand bytes its format has; the bytes beyond are ignored (R52). -/
def build (m : Mnemonic) (opa opb : Byte) : Instr :=
  match m with
  | .nop => .nop
  | .hlt => .hlt
  | .ret => .ret
  | .push => .push opa
  | .pop => .pop opa
  | .prn => .prn opa
  | .call => .call opa
  | .jmp => .jmp opa
  | .jeq => .jeq opa
  | .jne => .jne opa
  | .inc => .inc opa
  | .dec => .dec opa
  | .not => .not opa
  | .ldi => .ldi opa opb
  | .add => .add opa opb
  | .sub => .sub opa opb
  | .mul => .mul opa opb
  | .div => .div opa opb
  | .mod => .mod opa opb
  | .cmp => .cmp opa opb
  | .and => .and opa opb
  | .or => .or opa opb
  | .xor => .xor opa opb
  | .shl => .shl opa opb
  | .shr => .shr opa opb

/-- What the engine reads from the three bytes it fetches every cycle (R60 steps 3 and 4). -/
def decodeTriplet (ir opa opb : Byte) : Except DecodeError Instr :=
  match dispatch ir with
  | some m => .ok (build m opa opb)
  | none => .error (.unknownOpcode ir)

/-- The instruction at the front of a list of bytes, and the bytes after it. -/
def decode : List Byte → Except DecodeError (Instr × List Byte)
  | [] => .error .truncated
  | ir :: rest =>
    match dispatch ir with
    | none => .error (.unknownOpcode ir)
    | some m =>
      if rest.length + 1 < m.format.length then .error .truncated
      else .ok (build m (rest.getD 0 0) (rest.getD 1 0), rest.drop (m.format.length - 1))

/-- Byte `k` of a word numbered as spec/opcode_table.json numbers it: byte 0 is bits 7..0. -/
def byteOfWord (w k : Nat) : Byte := BitVec.ofNat 8 (w / 2 ^ (8 * k))

/-- The three bytes of an instruction whose `nbits` table bits are `w`, every bit above them 0. -/
def tableWordBytes (nbits w : Nat) : Byte × Byte × Byte :=
  let v := w % 2 ^ nbits
  (byteOfWord v 0, byteOfWord v 1, byteOfWord v 2)

/-- The instruction the decoder reads from an instruction whose `nbits` table bits are `w`. -/
def decodeTableWord (nbits w : Nat) : Option Instr :=
  match tableWordBytes nbits w with
  | (ir, opa, opb) =>
    match decodeTriplet ir opa opb with
    | .ok i => some i
    | .error _ => none

/-! ## The encoder -/

/-- The table entry of an instruction. -/
def mnemonicOf : Instr → Mnemonic
  | .nop => .nop
  | .hlt => .hlt
  | .ret => .ret
  | .push _ => .push
  | .pop _ => .pop
  | .prn _ => .prn
  | .call _ => .call
  | .jmp _ => .jmp
  | .jeq _ => .jeq
  | .jne _ => .jne
  | .inc _ => .inc
  | .dec _ => .dec
  | .not _ => .not
  | .ldi _ _ => .ldi
  | .add _ _ => .add
  | .sub _ _ => .sub
  | .mul _ _ => .mul
  | .div _ _ => .div
  | .mod _ _ => .mod
  | .cmp _ _ => .cmp
  | .and _ _ => .and
  | .or _ _ => .or
  | .xor _ _ => .xor
  | .shl _ _ => .shl
  | .shr _ _ => .shr

/-- The operand bytes of an instruction, in ascending address order (R33, R47). -/
def operandBytes : Instr → List Byte
  | .nop | .hlt | .ret => []
  | .push r | .pop r | .prn r | .call r | .jmp r | .jeq r | .jne r | .inc r | .dec r | .not r => [r]
  | .ldi r imm => [r, imm]
  | .add a b | .sub a b | .mul a b | .div a b | .mod a b | .cmp a b | .and a b | .or a b | .xor a b | .shl a b
  | .shr a b => [a, b]

/-- The opcode byte of an instruction. -/
def opcodeOf (i : Instr) : Byte := opc (mnemonicOf i)

/-- The bytes of an instruction (R57). -/
def encode (i : Instr) : List Byte := opcodeOf i :: operandBytes i

end Sys2Proof
end

