-- ==== Sys2Proof/Machine/State.lean ====
section
/-! DEFINITION. The machine's state, all of R10 and nothing else, as plain data; the fault record of R22; the reasons a
step can stop; the reset state of R27. -/

namespace Sys2Proof.Machine

/-- The memory array (R30) as the list of the (address, byte) pairs whose byte is not 0, addresses strictly rising
(`Memory.wf` in Ops.lean): an unlisted address reads as 0, what R27 says every cell holds after reset. -/
abbrev Memory := List Host.Cell

/-- The three comparison flags: separate 1-bit latches, no packed register (R19). -/
structure Flags where
  /-- Equal, `FL.E`. -/
  e : Bool
  /-- Less, `FL.L`. -/
  l : Bool
  /-- Greater, `FL.G`. -/
  g : Bool
  deriving DecidableEq, Repr

/-- The four fault kinds (R120). No rule raises `unsupportedAluOp` (R124). -/
inductive FaultKind where
  | unknownOpcode
  | unsupportedAluOp
  | divideByZero
  | outOfBounds
  deriving DecidableEq, Repr

/-- The `info` field of a fault record, per kind (R120, R22, C15). -/
inductive FaultInfo where
  /-- UnknownOpcode: the opcode byte. -/
  | opcode (b : Byte)
  /-- DivideByZero: the index of the divisor register. -/
  | divisor (r : RegIdx)
  /-- OutOfBounds `(mem, address)`. -/
  | mem (addr : Nat)
  /-- OutOfBounds `(reg, operand byte)`. -/
  | reg (b : Byte)
  deriving DecidableEq, Repr

/-- A fault record: the four fields of R22. -/
structure FaultRecord where
  kind : FaultKind
  /-- The `pc` of the cycle that faulted. -/
  pc : PcWord
  /-- The opcode byte fetched in that cycle, 0 if the opcode fetch itself faulted. -/
  opcode : Byte
  info : FaultInfo
  deriving DecidableEq, Repr

/-- The argument of the spec's `raise K(info)` (R7): a kind some rule raises, with its info. -/
inductive Exc where
  | unknownOpcode (b : Byte)
  | divideByZero (r : RegIdx)
  | memOutOfBounds (addr : Nat)
  | regOutOfBounds (b : Byte)
  deriving DecidableEq, Repr

/-- The complete architectural state (R10). -/
structure State where
  /-- `MEM[0..255]` (R30). -/
  mem : Memory
  /-- `x[0..7]` (R11). -/
  regs : Vector Byte 8
  /-- `pc` (R16). -/
  pc : PcWord
  /-- `FL.E`, `FL.L`, `FL.G` (R19). -/
  flags : Flags
  /-- `running` (R21). -/
  running : Bool
  /-- The fault latch, `none` or a record (R22). -/
  fault : Option FaultRecord
  /-- `OUT`, oldest value first (R23). -/
  out : List Byte
  deriving DecidableEq, Repr

/-- Why `step` stops. Both are raised by `step` only, on a state in which R65 says that no cycle starts; no
instruction's meaning raises either. -/
inductive Fault where
  /-- The run has ended normally: `running = 0`, no fault latched (R143). Safe: the hardware starts no further cycle. -/
  | runHalted
  /-- The run has ended abnormally: a fault is latched (R126). Safe: the hardware starts no further cycle. -/
  | runFaulted (r : FaultRecord)
  deriving DecidableEq, Repr

/-- What the model refuses. -/
inductive Refusal where
  /-- An instruction with no meaning yet; no arm of `exec` uses it. Safe. -/
  | notModelled (mnemonic : String)
  /-- Raised by the host operation `loadImage` for an image of more than 256 bytes (R43, D12). Safe. -/
  | imageTooLong
  deriving DecidableEq, Repr

/-- The state after reset (R27, R140). Every value is the spec's own. -/
def State.reset : State where
  mem := []
  regs := #v[0, 0, 0, 0, 0, 0, 0, Config.spReset]
  pc := 0
  flags := ⟨false, false, false⟩
  running := true
  fault := none
  out := []

end Sys2Proof.Machine
end

