-- ==== Sys2Proof/Machine/Ops.lean ====
section
/-! DEFINITION. The named operations over memory, registers, the program counter, the stack and the output channel, and
taking a fault (R125): the primitives of R7, each written once. -/

namespace Sys2Proof.Machine

/-! ## Memory -/

/-- The byte at an address: the listed one, else 0, the reset value of every cell (R27). -/
def Memory.read : Memory → Nat → Byte
  | [], _ => 0
  | (k, v) :: rest, a => if k = a then v else Memory.read rest a

/-- A pair put in front, or left out when its byte is what an unlisted address reads as. -/
def Memory.consCell (a : Nat) (v : Byte) (m : Memory) : Memory := if v = 0 then m else (a, v) :: m

/-- Memory with byte `v` at address `a`, in canonical form again. -/
def Memory.write : Memory → Nat → Byte → Memory
  | [], a, v => Memory.consCell a v []
  | (k, w) :: rest, a, v =>
    if a < k then Memory.consCell a v ((k, w) :: rest)
    else if a = k then Memory.consCell a v rest
    else (k, w) :: Memory.write rest a v

/-- Every listed address is at least `lo` and below the memory size, addresses rise strictly, no listed byte is 0. -/
def Memory.wfFrom : Nat → Memory → Bool
  | _, [] => true
  | lo, (k, v) :: rest => decide (lo ≤ k) && decide (k < Config.memSize) && (v != 0) && Memory.wfFrom (k + 1) rest

/-- The canonical form of memory. -/
def Memory.wf (m : Memory) : Bool := Memory.wfFrom 0 m

/-- `MemRead(addr, 1)` (R31). -/
def memRead (s : State) (addr : Nat) : Except Exc Byte :=
  if addr < Config.memSize then .ok (s.mem.read addr) else .error (.memOutOfBounds addr)

/-- `MEM[addr] <- v`, the address already checked. -/
def State.store (s : State) (addr : Nat) (v : Byte) : State := { s with mem := s.mem.write addr v }

/-- `MemWrite(addr, 1, v)` (R31). -/
def memWrite (s : State) (addr : Nat) (v : Byte) : Except Exc State :=
  if addr < Config.memSize then .ok (s.store addr v) else .error (.memOutOfBounds addr)

/-! ## Registers, flags, program counter, output -/

/-- `x[i]` (R7, R11). -/
def State.reg (s : State) (i : RegIdx) : Byte := s.regs[i]

/-- `x[i] <- v` (R7). A `Byte` holds no value outside 0..255, so every write is truncated (R13). -/
def State.setReg (s : State) (i : RegIdx) (v : Byte) : State := { s with regs := s.regs.set i v }

/-- All three flags written (R84). -/
def State.setFlags (s : State) (f : Flags) : State := { s with flags := f }

/-- `pc <- t`. -/
def State.setPc (s : State) (t : PcWord) : State := { s with pc := t }

/-- `zext_9(v)` (R6). -/
def zext9 (v : Byte) : PcWord := v.setWidth 9

/-- `pc <- pc + w`, in 9 bits (R18). From a cycle's `pc`, at most 253, the sum is at most 256 and exact; what it does at
the `pc` values above 256, which no run reaches (R28), is a DESIGN CHOICE (log 5). -/
def State.advance (s : State) (w : Nat) : State := s.setPc (s.pc + BitVec.ofNat 9 w)

/-- `pc <- zext_9(v)`: a control transfer (R67). -/
def State.jumpTo (s : State) (v : Byte) : State := s.setPc (zext9 v)

/-- `Output(v)`: append to OUT (R23). -/
def State.output (s : State) (v : Byte) : State := { s with out := s.out ++ [v] }

/-- `running <- 0` (R92). -/
def State.halt (s : State) : State := { s with running := false }

/-! ## The stack (R100) -/

/-- The stack pointer. -/
def State.sp (s : State) : Byte := s.reg Config.sp

/-- Decrement of the stack pointer, modulo 256. -/
def State.decSp (s : State) : State := s.setReg Config.sp (s.sp - 1)

/-- Increment of the stack pointer, modulo 256. -/
def State.incSp (s : State) : State := s.setReg Config.sp (s.sp + 1)

/-- The address a push made from this state stores to: the stack pointer after the decrement. -/
def State.pushAddr (s : State) : Nat := s.decSp.sp.toNat

/-! ## Taking a fault (R125) -/

/-- The numeric code of a fault kind (R120, D9). -/
def FaultKind.code : FaultKind → Nat
  | .unknownOpcode => 1
  | .unsupportedAluOp => 2
  | .divideByZero => 3
  | .outOfBounds => 4

/-- The kind that is raised. -/
def Exc.kind : Exc → FaultKind
  | .unknownOpcode _ => .unknownOpcode
  | .divideByZero _ => .divideByZero
  | .memOutOfBounds _ => .outOfBounds
  | .regOutOfBounds _ => .outOfBounds

/-- The info that is recorded (R120). -/
def Exc.info : Exc → FaultInfo
  | .unknownOpcode b => .opcode b
  | .divideByZero r => .divisor r
  | .memOutOfBounds a => .mem a
  | .regOutOfBounds b => .reg b

/-- Fault entry: the latch takes (kind, pc, opcode, info) and nothing else changes (R125). There is no handler to go to
and no return from a fault (R126), so no operation undoes this one but reset. -/
def takeFault (s : State) (opcode : Byte) (x : Exc) : State :=
  { s with fault := some ⟨x.kind, s.pc, opcode, x.info⟩ }

/-- The end of a handler: the state it made, or, where it raised, the state it started from with the fault taken. All
checks precede the first write, so a fault leaves no partial effect (R125). -/
def finish (s : State) (opcode : Byte) (r : Except Exc State) : Host.Outcome State Fault Refusal :=
  match r with
  | .ok s' => .next s'
  | .error x => .next (takeFault s opcode x)

end Sys2Proof.Machine
end

