-- ==== Sys2Proof/Machine/Flags.lean ====
section
/-! DEFINITION. The one flag computation of this hardware: CMP's (R84). No other instruction writes a flag (R20), and
the ALU has no carry, overflow, zero or sign output (R70). -/

namespace Sys2Proof.Machine

/-- The flags of an unsigned comparison (R84). -/
def compareFlags (x y : Byte) : Flags where
  e := decide (x.toNat = y.toNat)
  l := decide (x.toNat < y.toNat)
  g := decide (x.toNat > y.toNat)

end Sys2Proof.Machine
end

