-- ==== Sys2Proof/Machine/Operands.lean ====
section
/-! DEFINITION. The operand forms (R48): a register operand byte, checked and never masked; LDI's immediate is the byte
as it stands, so it needs no operation. -/

namespace Sys2Proof.Machine

/-- `RegIdx(b)` (R14): the register an operand byte names, or OutOfBounds. UNVERIFIED (log 4): decision D6. -/
def regIdx (b : Byte) : Except Exc RegIdx :=
  if h : b.toNat < 8 then .ok ⟨b.toNat, h⟩ else .error (.regOutOfBounds b)

/-- The operand byte that names a register (R57). -/
def regByte (r : RegIdx) : Byte := BitVec.ofNat 8 r.val

end Sys2Proof.Machine
end

