-- ==== Sys2Proof/Machine/Alu.lean ====
section
/-! DEFINITION. alu_comparator: the ALU functions on byte values (R70), each the exact result on integers narrowed to 8
bits at the end (R85), and the 14 instructions that use them (R71 to R84). -/

namespace Sys2Proof.Machine

/-! ## The ALU functions -/

/-- ADD (R71). -/
def aluAdd (x y : Byte) : Byte := BitVec.ofNat 8 (x.toNat + y.toNat)

/-- SUB (R72): the exact difference may be negative and wraps. -/
def aluSub (x y : Byte) : Byte := BitVec.ofInt 8 ((x.toNat : Int) - (y.toNat : Int))

/-- MUL (R73): the low 8 bits of the product. -/
def aluMul (x y : Byte) : Byte := BitVec.ofNat 8 (x.toNat * y.toNat)

/-- DIV by a divisor that is not 0 (R74): the floor of the quotient. UNVERIFIED (log 15): decision D14. -/
def aluDiv (x y : Byte) : Byte := BitVec.ofNat 8 (x.toNat / y.toNat)

/-- MOD by a divisor that is not 0 (R75): the remainder. UNVERIFIED (log 15): decision D14. -/
def aluMod (x y : Byte) : Byte := BitVec.ofNat 8 (x.toNat % y.toNat)

/-- AND (R76). -/
def aluAnd (x y : Byte) : Byte := x &&& y

/-- OR (R77). -/
def aluOr (x y : Byte) : Byte := x ||| y

/-- XOR (R78). -/
def aluXor (x y : Byte) : Byte := x ^^^ y

/-- NOT (R79): `255 - x`. -/
def aluNot (x : Byte) : Byte := BitVec.ofNat 8 (255 - x.toNat)

/-- INC (R80). -/
def aluInc (x : Byte) : Byte := BitVec.ofNat 8 (x.toNat + 1)

/-- DEC (R81): the exact difference may be negative and wraps. -/
def aluDec (x : Byte) : Byte := BitVec.ofInt 8 ((x.toNat : Int) - 1)

/-- SHL (R82): multiplication by `2 ^ y` on unbounded integers, then modulo 256; the count is the whole byte.
UNVERIFIED (log 15): decision D15. -/
def aluShl (x y : Byte) : Byte := BitVec.ofNat 8 (x.toNat * 2 ^ y.toNat)

/-- SHR (R83): division by `2 ^ y`, logical; the count is the whole byte. UNVERIFIED (log 15): decision D15. -/
def aluShr (x y : Byte) : Byte := BitVec.ofNat 8 (x.toNat / 2 ^ y.toNat)

/-! ## The handlers' shared shapes -/

/-- A two-register operation whose result goes to the first register: check both indices, compute, write, `pc + 3`. -/
def aluBinary (opcode : Byte) (f : Byte → Byte → Byte) (opa opb : Byte) (s : State) :
    Host.Outcome State Fault Refusal :=
  finish s opcode do
    let ra ← regIdx opa
    let rb ← regIdx opb
    .ok ((s.setReg ra (f (s.reg ra) (s.reg rb))).advance 3)

/-- As `aluBinary`, after the check that the divisor register does not hold 0 (R122). -/
def aluDivide (opcode : Byte) (f : Byte → Byte → Byte) (opa opb : Byte) (s : State) :
    Host.Outcome State Fault Refusal :=
  finish s opcode do
    let ra ← regIdx opa
    let rb ← regIdx opb
    if s.reg rb = 0 then .error (.divideByZero rb)
    else .ok ((s.setReg ra (f (s.reg ra) (s.reg rb))).advance 3)

/-- A one-register operation: source and destination are the register of operand byte 1, `pc + 2` (R70). -/
def aluUnary (opcode : Byte) (f : Byte → Byte) (opa : Byte) (s : State) : Host.Outcome State Fault Refusal :=
  finish s opcode do
    let r ← regIdx opa
    .ok ((s.setReg r (f (s.reg r))).advance 2)

/-! ## The instructions -/

/-- ADD a b (R71). -/
def execAdd (a b : Byte) (s : State) : Host.Outcome State Fault Refusal := aluBinary (opc .add) aluAdd a b s

/-- SUB a b (R72). -/
def execSub (a b : Byte) (s : State) : Host.Outcome State Fault Refusal := aluBinary (opc .sub) aluSub a b s

/-- MUL a b (R73). -/
def execMul (a b : Byte) (s : State) : Host.Outcome State Fault Refusal := aluBinary (opc .mul) aluMul a b s

/-- DIV a b (R74). -/
def execDiv (a b : Byte) (s : State) : Host.Outcome State Fault Refusal := aluDivide (opc .div) aluDiv a b s

/-- MOD a b (R75). -/
def execMod (a b : Byte) (s : State) : Host.Outcome State Fault Refusal := aluDivide (opc .mod) aluMod a b s

/-- AND a b (R76). -/
def execAnd (a b : Byte) (s : State) : Host.Outcome State Fault Refusal := aluBinary (opc .and) aluAnd a b s

/-- OR a b (R77). -/
def execOr (a b : Byte) (s : State) : Host.Outcome State Fault Refusal := aluBinary (opc .or) aluOr a b s

/-- XOR a b (R78). -/
def execXor (a b : Byte) (s : State) : Host.Outcome State Fault Refusal := aluBinary (opc .xor) aluXor a b s

/-- SHL a b (R82). -/
def execShl (a b : Byte) (s : State) : Host.Outcome State Fault Refusal := aluBinary (opc .shl) aluShl a b s

/-- SHR a b (R83). -/
def execShr (a b : Byte) (s : State) : Host.Outcome State Fault Refusal := aluBinary (opc .shr) aluShr a b s

/-- NOT r (R79). UNVERIFIED (log 3): decision D3, the register of operand byte 1 is both source and destination. -/
def execNot (r : Byte) (s : State) : Host.Outcome State Fault Refusal := aluUnary (opc .not) aluNot r s

/-- INC r (R80). -/
def execInc (r : Byte) (s : State) : Host.Outcome State Fault Refusal := aluUnary (opc .inc) aluInc r s

/-- DEC r (R81). -/
def execDec (r : Byte) (s : State) : Host.Outcome State Fault Refusal := aluUnary (opc .dec) aluDec r s

/-- CMP a b (R84): writes all three flags and no register; the handler adds 3 to `pc` once. -/
def execCmp (a b : Byte) (s : State) : Host.Outcome State Fault Refusal :=
  finish s (opc .cmp) do
    let ra ← regIdx a
    let rb ← regIdx b
    .ok ((s.setFlags (compareFlags (s.reg ra) (s.reg rb))).advance 3)

end Sys2Proof.Machine
end

