-- ==== Sys2Proof/Machine/Control.lean ====
section
/-! DEFINITION. The control transfers CALL, RET, JMP, JEQ, JNE (R110 to R115). Every target is a register's or the
stack's byte, zero-extended (R67). -/

namespace Sys2Proof.Machine

/-- CALL r (R111): push `pc + 2`, then jump to the register, read after the decrement. UNVERIFIED (log 13): decision
D21, CALL R7 jumps to the decremented stack pointer. In a cycle `pc + 2` is at most 255 and fits the byte (log 18). -/
def execCall (r : Byte) (s : State) : Host.Outcome State Fault Refusal :=
  finish s (opc .call) do
    let rr ← regIdx r
    let ret := s.pc.toNat + 2
    let s₁ := s.decSp
    let s₂ ← memWrite s₁ s₁.sp.toNat (BitVec.ofNat 8 ret)
    .ok (s₂.jumpTo (s₂.reg rr))

/-- RET (R112). -/
def execRet (s : State) : Host.Outcome State Fault Refusal :=
  finish s (opc .ret) do
    let v ← memRead s s.sp.toNat
    .ok (s.jumpTo v).incSp

/-- JMP r (R113). -/
def execJmp (r : Byte) (s : State) : Host.Outcome State Fault Refusal :=
  finish s (opc .jmp) do
    let rr ← regIdx r
    .ok (s.jumpTo (s.reg rr))

/-- A conditional jump (R68): the index is checked whether or not the jump is taken (R14, C13). -/
def condJump (opcode : Byte) (taken : Bool) (r : Byte) (s : State) : Host.Outcome State Fault Refusal :=
  finish s opcode do
    let rr ← regIdx r
    .ok (if taken then s.jumpTo (s.reg rr) else s.advance 2)

/-- JEQ r (R114): the guard is the Equal flag. -/
def execJeq (r : Byte) (s : State) : Host.Outcome State Fault Refusal := condJump (opc .jeq) s.flags.e r s

/-- JNE r (R115): the guard is the Equal flag only, never Less or Greater. -/
def execJne (r : Byte) (s : State) : Host.Outcome State Fault Refusal := condJump (opc .jne) (!s.flags.e) r s

end Sys2Proof.Machine
end

