-- ==== Sys2Proof/Machine/DataIo.lean ====
section
/-! DEFINITION. LDI, PRN, HLT and NOP (R90 to R93). -/

namespace Sys2Proof.Machine

/-- LDI r v (R90): the immediate is stored as it stands. -/
def execLdi (r imm : Byte) (s : State) : Host.Outcome State Fault Refusal :=
  finish s (opc .ldi) do
    let rr ← regIdx r
    .ok ((s.setReg rr imm).advance 3)

/-- PRN r (R91): the core emits the 8-bit value; its decimal text is made outside the core (R3(d), log 21). -/
def execPrn (r : Byte) (s : State) : Host.Outcome State Fault Refusal :=
  finish s (opc .prn) do
    let rr ← regIdx r
    .ok ((s.output (s.reg rr)).advance 2)

/-- HLT (R92): `pc` stays at the HLT opcode. -/
def execHlt (s : State) : Host.Outcome State Fault Refusal := .next s.halt

/-- NOP (R93). UNVERIFIED (log 14): decision D16, the width is 1. -/
def execNop (s : State) : Host.Outcome State Fault Refusal := .next (s.advance 1)

end Sys2Proof.Machine
end

