-- ==== Sys2Proof/Machine/Stack.lean ====
section
/-! DEFINITION. PUSH and POP (R101, R102). Both take their register from their own re-read of the byte at `pc + 1` and
not from the operand the engine passed ("preserve this exact indirection", R103); in every cycle the two bytes are the
same, so R103 lets a model use either (log 12). -/

namespace Sys2Proof.Machine

/-- PUSH r (R101): decrement first, then read the register. UNVERIFIED (log 13): decision D21, PUSH R7 pushes the
decremented stack pointer. -/
def execPush (_r : Byte) (s : State) : Host.Outcome State Fault Refusal :=
  finish s (opc .push) do
    let sel ← memRead s (s.pc.toNat + 1)
    let rr ← regIdx sel
    let s₁ := s.decSp
    let s₂ ← memWrite s₁ s₁.sp.toNat (s₁.reg rr)
    .ok (s₂.advance 2)

/-- POP r (R102): assign the popped byte, then increment the stack pointer. UNVERIFIED (log 13): decision D21, POP R7
leaves the popped byte plus 1. -/
def execPop (_r : Byte) (s : State) : Host.Outcome State Fault Refusal :=
  finish s (opc .pop) do
    let sel ← memRead s (s.pc.toNat + 1)
    let rr ← regIdx sel
    let v ← memRead s s.sp.toNat
    .ok ((s.setReg rr v).incSp.advance 2)

end Sys2Proof.Machine
end

