-- ==== Sys2Proof/Machine/Cycle.lean ====
section
/-! DEFINITION. One cycle (R60): fetch of the opcode and of two candidate operand bytes, dispatch, execution. -/

namespace Sys2Proof.Machine

/-- The three bytes of a cycle, "not a materialized object" (R26): they do not outlive the cycle. -/
structure Triplet where
  ir : Byte
  opa : Byte
  opb : Byte
  deriving DecidableEq, Repr

/-- Steps 1 and 2 (R61, R62): three reads at `pc`, `pc + 1`, `pc + 2`, the addresses without wrap, whatever the opcode.
A fault comes with the opcode byte its record takes: 0 where the opcode fetch itself faulted (R22).
UNVERIFIED (log 4): decision D5, an out-of-range address faults. -/
def fetch (s : State) : Except (Exc × Byte) Triplet :=
  match memRead s s.pc.toNat with
  | .error x => .error (x, 0)
  | .ok ir =>
    match memRead s (s.pc.toNat + 1) with
    | .error x => .error (x, ir)
    | .ok opa =>
      match memRead s (s.pc.toNat + 2) with
      | .error x => .error (x, ir)
      | .ok opb => .ok ⟨ir, opa, opb⟩

/-- Steps 3 and 4 (R63, R64) on the three bytes fetched. -/
def dispatchAndExecute (s : State) (t : Triplet) : Host.Outcome State Fault Refusal :=
  match decodeTriplet t.ir t.opa t.opb with
  | .ok i => exec i s
  | .error _ => .next (takeFault s t.ir (.unknownOpcode t.ir))

/-- One cycle. A fault is taken and the state with its record is the next state (R125). -/
def cycle (s : State) : Host.Outcome State Fault Refusal :=
  match fetch s with
  | .error (x, opcode) => .next (takeFault s opcode x)
  | .ok t => dispatchAndExecute s t

/-- Step 5, the loop condition (R65): why no cycle starts, if none does. DESIGN CHOICE (log 7, log 8): the two ends of a
run are named stops of `step`, and a latched fault is named first. -/
def runEnded (s : State) : Option Fault :=
  match s.fault with
  | some r => some (.runFaulted r)
  | none => if s.running then none else some .runHalted

end Sys2Proof.Machine
end

