-- ==== Sys2Proof/Machine/Launch.lean ====
section
/-! DEFINITION. What the host does before start (R9, R141, R145): reset, then load a program image. -/

namespace Sys2Proof.Machine

/-- The bytes of an image written from address `a` upward, in order (R43). -/
def Memory.loadFrom (m : Memory) (a : Nat) : List Byte → Memory
  | [] => m
  | b :: bs => Memory.loadFrom (m.write a b) (a + 1) bs

/-- The host's *load*: the image from address 0, and nothing else changed; an image longer than memory is refused
(R43, log 11). -/
def loadImage (image : List Byte) (s : State) : Host.Outcome State Fault Refusal :=
  if image.length ≤ Config.memSize then .next { s with mem := s.mem.loadFrom 0 image }
  else .refused .imageTooLong

/-- Reset, then load: the launch state (R141). -/
def launch (image : List Byte) : Host.Outcome State Fault Refusal := loadImage image State.reset

end Sys2Proof.Machine
end

