-- ==== Sys2Proof/Machine/Step.lean ====
section
/-! DEFINITION. One step of the machine: a cycle where the loop condition lets one start (R65), else the named stop; and
the placing of an instruction where the next fetch reads it, for the host's probes. -/

namespace Sys2Proof.Machine

/-- One step (R60, R65). -/
def step (s : State) : Host.Outcome State Fault Refusal :=
  match runEnded s with
  | some r => .fault r
  | none => cycle s

/-- The state with an instruction's three bytes at `pc`, `pc + 1`, `pc + 2`, where the next cycle fetches (a byte past the
last cell has no cell to go to); nothing else changes. It stands for the host's image load (log 10). -/
def State.withFetchWord (s : State) (nbits w : Nat) : State :=
  match tableWordBytes nbits w with
  | (ir, opa, opb) =>
    { s with mem := s.mem.loadFrom s.pc.toNat ([ir, opa, opb].take (Config.memSize - s.pc.toNat)) }

end Sys2Proof.Machine
end

