-- ==== Sys2Proof/Safety.lean ====
section
/-! DEFINITION. The terms claims use: the status of a run (R143), the machine invariant (R28 with the shape of the fault
record, R120), a run from a loaded image (R141), and the instruction a cycle runs. -/

namespace Sys2Proof.Machine

/-- The three conditions of the core: "either cycling, halted or faulted" (R130, R143). -/
inductive RunStatus where
  | cycling
  | halted
  | faulted
  deriving DecidableEq, Repr

/-- The status the host reads (R9(c), R131). -/
def State.status (s : State) : RunStatus :=
  match s.fault with
  | some _ => .faulted
  | none => if s.running then .cycling else .halted

/-- A cycle may start (R65). -/
abbrev State.canCycle (s : State) : Prop := s.running = true ∧ s.fault = none

/-- The next cycle runs `i`: one may start, its fetch succeeds and the three bytes decode to `i` (R60). -/
def State.runs (s : State) (i : Instr) : Prop :=
  s.canCycle ∧ ∃ t : Triplet, fetch s = .ok t ∧ decodeTriplet t.ir t.opa t.opb = .ok i

/-- "exactly zero or one flag bit set at any time" (R19). -/
abbrev Flags.exclusive (f : Flags) : Prop :=
  (f.e = true → f.l = false ∧ f.g = false) ∧ (f.l = true → f.g = false)

/-- What a fault record says of the state it was latched in: the `pc` of the faulting cycle, and the info its kind takes
(R120): an opcode byte that no table entry has, the register of a DIV or MOD whose value is 0, the address 256 (the only
one a fetch presents out of range, R31), or a register operand byte above 7. `unsupportedAluOp` is never latched (R124). -/
def FaultRecord.shape (r : FaultRecord) (s : State) : Prop :=
  r.pc = s.pc ∧
    match r.kind, r.info with
    | .unknownOpcode, .opcode b => r.opcode = b ∧ dispatch b = none
    | .divideByZero, .divisor d => s.reg d = 0 ∧ (r.opcode = opc .div ∨ r.opcode = opc .mod)
    | .outOfBounds, .mem a => a = 256
    | .outOfBounds, .reg b => 8 ≤ b.toNat
    | _, _ => False

/-- The machine invariant: memory in canonical form with every address below 256, flags exclusive, `pc` in 0..256 (R28),
and a latched fault only in a state that was running and of the right shape (R125, R143). -/
structure State.Inv (s : State) : Prop where
  memWf : s.mem.wf = true
  flagsExclusive : s.flags.exclusive
  pcBound : s.pc.toNat ≤ 256
  faultShape : ∀ r, s.fault = some r → s.running = true ∧ r.shape s

/-- `t` is reached from `s` by completed cycles. -/
inductive Steps : State → State → Prop where
  | refl (s : State) : Steps s s
  | tail {s t u : State} : Steps s t → step t = .next u → Steps s u

/-- A safe state: no fault is latched ("A faulted state is never a normal end of run", R126). -/
def State.safe (s : State) : Prop := s.fault = none

end Sys2Proof.Machine
end

