-- ==== Sys2Proof/Certificates/Slice0/Obligations.lean ====
section
/-! DEFINITION. The statements for the provers, from the numbered rules of spec/, and the words they share. A docstring
names the decision or the log entry where a clause rests on the spec's own choice and not on its source. -/

namespace Sys2Proof.Claims

open Sys2Proof.Machine

/-! ## The words the statements share -/

/-- Every cell of memory reads as before. -/
def SameMem (s t : State) : Prop := ∀ a, t.mem.read a = s.mem.read a

/-- Everything but `pc`, memory and the registers of `w` is as before. -/
def SameBut (w : List RegIdx) (s t : State) : Prop :=
  (∀ j, j ∉ w → t.reg j = s.reg j) ∧ t.flags = s.flags ∧ t.running = s.running ∧ t.fault = s.fault ∧ t.out = s.out

/-- The state with this fault latched by its own cycle, and nothing else changed (R125). -/
def faulted (s : State) (k : FaultKind) (opcode : Byte) (info : FaultInfo) : State :=
  { s with fault := some ⟨k, s.pc, opcode, info⟩ }

/-- The instruction raises OutOfBounds for a register operand byte. -/
def RaisesReg (i : Instr) (s : State) (opcode b : Byte) : Prop :=
  exec i s = .next (faulted s .outOfBounds opcode (.reg b))

/-- The rule of a two-register instruction (the shape R71 gives and the others refer to): its encoding; its result `f`
of the two values read before the write, in the first register; `pc + 3`; nothing else changed; OutOfBounds for the
first operand byte above 7, else for the second. -/
def BinaryRule (mk : Byte → Byte → Instr) (opcode : Byte) (f : Nat → Nat → Nat) : Prop :=
  ∀ (opa opb : Byte) (s : State),
    encode (mk opa opb) = [opcode, opa, opb] ∧
    (∀ ra rb : RegIdx, opa.toNat = ra.val → opb.toNat = rb.val →
      ∃ t, exec (mk opa opb) s = .next t ∧ (t.reg ra).toNat = f (s.reg ra).toNat (s.reg rb).toNat ∧
        t.pc = s.pc + 3 ∧ SameBut [ra] s t ∧ SameMem s t) ∧
    (7 < opa.toNat → RaisesReg (mk opa opb) s opcode opa) ∧
    (opa.toNat ≤ 7 → 7 < opb.toNat → RaisesReg (mk opa opb) s opcode opb)

/-- As `BinaryRule` for DIV and MOD: the result where the divisor register does not hold 0, DivideByZero where it does,
after both index checks. -/
def DivisionRule (mk : Byte → Byte → Instr) (opcode : Byte) (f : Nat → Nat → Nat) : Prop :=
  ∀ (opa opb : Byte) (s : State),
    encode (mk opa opb) = [opcode, opa, opb] ∧
    (∀ ra rb : RegIdx, opa.toNat = ra.val → opb.toNat = rb.val → s.reg rb ≠ 0 →
      ∃ t, exec (mk opa opb) s = .next t ∧ (t.reg ra).toNat = f (s.reg ra).toNat (s.reg rb).toNat ∧
        t.pc = s.pc + 3 ∧ SameBut [ra] s t ∧ SameMem s t) ∧
    (∀ ra rb : RegIdx, opa.toNat = ra.val → opb.toNat = rb.val → s.reg rb = 0 →
      exec (mk opa opb) s = .next (faulted s .divideByZero opcode (.divisor rb))) ∧
    (7 < opa.toNat → RaisesReg (mk opa opb) s opcode opa) ∧
    (opa.toNat ≤ 7 → 7 < opb.toNat → RaisesReg (mk opa opb) s opcode opb)

/-- The rule of a one-register ALU instruction: its encoding, its result in the register named, `pc + 2`, nothing else
changed, OutOfBounds for an operand byte above 7. -/
def UnaryRule (mk : Byte → Instr) (opcode : Byte) (f : Nat → Nat) : Prop :=
  ∀ (opa : Byte) (s : State),
    encode (mk opa) = [opcode, opa] ∧
    (∀ r : RegIdx, opa.toNat = r.val →
      ∃ t, exec (mk opa) s = .next t ∧ (t.reg r).toNat = f (s.reg r).toNat ∧
        t.pc = s.pc + 2 ∧ SameBut [r] s t ∧ SameMem s t) ∧
    (7 < opa.toNat → RaisesReg (mk opa) s opcode opa)

/-- The rule of a conditional jump: taken exactly when the Equal flag has the value `guard`, to the register's value;
otherwise `pc + 2`; nothing else changed; OutOfBounds for an operand byte above 7, taken or not. -/
def ConditionalJumpRule (mk : Byte → Instr) (opcode : Byte) (guard : Bool) : Prop :=
  ∀ (opa : Byte) (s : State),
    encode (mk opa) = [opcode, opa] ∧
    (∀ r : RegIdx, opa.toNat = r.val →
      ∃ t, exec (mk opa) s = .next t ∧ (s.flags.e = guard → t.pc.toNat = (s.reg r).toNat) ∧
        (s.flags.e ≠ guard → t.pc = s.pc + 2) ∧ SameBut [] s t ∧ SameMem s t) ∧
    (7 < opa.toNat → RaisesReg (mk opa) s opcode opa)

/-- The instruction jumped to a register named by its operand byte, the value being the register's after the
instruction (for CALL R7 the decremented stack pointer, D21; the other jumps change no register). -/
def JumpedTo (r : Byte) (t : State) : Prop := ∃ rr : RegIdx, r.toNat = rr.val ∧ t.pc.toNat = (t.reg rr).toNat

/-- R17's complete list of what an instruction does to `pc`. -/
def PcUpdate (i : Instr) (s t : State) : Prop :=
  match i with
  | .nop => t.pc = s.pc + 1
  | .hlt => t.pc = s.pc
  | .ret => t.pc.toNat = (s.mem.read (s.reg 7).toNat).toNat
  | .prn _ | .push _ | .pop _ | .not _ | .inc _ | .dec _ => t.pc = s.pc + 2
  | .jmp r | .call r => JumpedTo r t
  | .jeq r => if s.flags.e = true then JumpedTo r t else t.pc = s.pc + 2
  | .jne r => if s.flags.e = true then t.pc = s.pc + 2 else JumpedTo r t
  | .ldi _ _ | .add _ _ | .sub _ _ | .mul _ _ | .div _ _ | .mod _ _ | .and _ _ | .or _ _ | .xor _ _ | .shl _ _
  | .shr _ _ | .cmp _ _ => t.pc = s.pc + 3

/-- R15's "writes named" and "implicit" columns: the registers an instruction may write. -/
def WritesReg (i : Instr) (j : RegIdx) : Prop :=
  match i with
  | .ldi r _ | .not r | .inc r | .dec r => r.toNat = j.val
  | .add a _ | .sub a _ | .mul a _ | .div a _ | .mod a _ | .and a _ | .or a _ | .xor a _ | .shl a _ | .shr a _ =>
    a.toNat = j.val
  | .push _ | .call _ | .ret => j = 7
  | .pop r => r.toNat = j.val ∨ j = 7
  | .nop | .hlt | .prn _ | .jmp _ | .jeq _ | .jne _ | .cmp _ _ => False

/-- The instruction stores a byte to memory: PUSH and CALL, no other (R32). -/
def StoresByte : Instr → Prop
  | .push _ | .call _ => True
  | .nop | .hlt | .ret | .pop _ | .prn _ | .jmp _ | .jeq _ | .jne _ | .inc _ | .dec _ | .not _ | .ldi _ _ | .add _ _
  | .sub _ _ | .mul _ _ | .div _ _ | .mod _ _ | .cmp _ _ | .and _ _ | .or _ _ | .xor _ _ | .shl _ _ | .shr _ _ => False

/-- The fault a cycle that starts in `s` must take, written as R127's chain of checks in their order: its kind, the
opcode byte recorded and the info; `none` where every check passes. -/
def firstFault (s : State) : Option (FaultKind × Byte × FaultInfo) :=
  let pc := s.pc.toNat
  let ir := s.mem.read pc
  let opa := s.mem.read (pc + 1)
  let opb := s.mem.read (pc + 2)
  if 256 ≤ pc then some (.outOfBounds, 0, .mem pc)
  else if 256 ≤ pc + 1 then some (.outOfBounds, ir, .mem (pc + 1))
  else if 256 ≤ pc + 2 then some (.outOfBounds, ir, .mem (pc + 2))
  else
    match dispatch ir with
    | none => some (.unknownOpcode, ir, .opcode ir)
    | some m =>
      if m.format ≠ .z ∧ 7 < opa.toNat then some (.outOfBounds, ir, .reg opa)
      else if m.format = .rr ∧ 7 < opb.toNat then some (.outOfBounds, ir, .reg opb)
      else if (m = .div ∨ m = .mod) ∧ s.reg (Fin.ofNat 8 opb.toNat) = 0 then
        some (.divideByZero, ir, .divisor (Fin.ofNat 8 opb.toNat))
      else none

end Sys2Proof.Claims

open Sys2Proof Sys2Proof.Machine Sys2Proof.Claims

/-! ## Encoding -/

/-- Each row of R50's table, with any operand bytes, decodes to its instruction. The byte values are the spec's decision
D1, from general knowledge (log 1), so this is derived. -/
def Obligations.OpcodeTableRowsDecode : Prop :=
  ∀ x y : Byte,
    (decodeTriplet 0x00 x y = .ok .nop ∧ decodeTriplet 0x01 x y = .ok .hlt ∧ decodeTriplet 0x11 x y = .ok .ret) ∧
    (decodeTriplet 0x45 x y = .ok (.push x) ∧ decodeTriplet 0x46 x y = .ok (.pop x) ∧
      decodeTriplet 0x47 x y = .ok (.prn x) ∧ decodeTriplet 0x50 x y = .ok (.call x) ∧
      decodeTriplet 0x54 x y = .ok (.jmp x) ∧ decodeTriplet 0x55 x y = .ok (.jeq x) ∧
      decodeTriplet 0x56 x y = .ok (.jne x) ∧ decodeTriplet 0x65 x y = .ok (.inc x) ∧
      decodeTriplet 0x66 x y = .ok (.dec x) ∧ decodeTriplet 0x69 x y = .ok (.not x)) ∧
    (decodeTriplet 0x82 x y = .ok (.ldi x y) ∧ decodeTriplet 0xA0 x y = .ok (.add x y) ∧
      decodeTriplet 0xA1 x y = .ok (.sub x y) ∧ decodeTriplet 0xA2 x y = .ok (.mul x y) ∧
      decodeTriplet 0xA3 x y = .ok (.div x y) ∧ decodeTriplet 0xA4 x y = .ok (.mod x y) ∧
      decodeTriplet 0xA7 x y = .ok (.cmp x y) ∧ decodeTriplet 0xA8 x y = .ok (.and x y) ∧
      decodeTriplet 0xAA x y = .ok (.or x y) ∧ decodeTriplet 0xAB x y = .ok (.xor x y) ∧
      decodeTriplet 0xAC x y = .ok (.shl x y) ∧ decodeTriplet 0xAD x y = .ok (.shr x y))

/-- Decoding an encoded instruction gives it back, with every operand at every value, whatever bytes follow (R57, which
the spec marks as derived; R52 for the bytes that follow). -/
def Obligations.DecodeOfEncodeIsTheInstruction : Prop :=
  ∀ (i : Instr) (rest : List Byte),
    decode (encode i ++ rest) = .ok (i, rest) ∧
    ∀ ir opa opb : Byte, encode i ++ rest = [ir, opa, opb] → decodeTriplet ir opa opb = .ok i

/-- The decoder answers an instruction only for that instruction's own bytes, and rejects a first byte that is the
opcode of no instruction, by name (R51, R57; both marked as derived or as resting on D1). -/
def Obligations.DecodedBytesAreTheEncoding : Prop :=
  (∀ (bs rest : List Byte) (i : Instr), decode bs = .ok (i, rest) → bs = encode i ++ rest) ∧
  (∀ ir opa opb : Byte, (∀ i, opcodeOf i ≠ ir) → decodeTriplet ir opa opb = .error (.unknownOpcode ir))

/-! ## Reset and launch -/

/-- The reset values of R27. Every one is the spec's; `running = 1`, the empty latch, the empty OUT and the zero memory
rest on its decisions D11, D8, D18, D12, so this is derived. -/
def Obligations.ResetLeavesTheTableOfValues : Prop :=
  (∀ j : RegIdx, State.reset.reg j = if j = 7 then 0xF4 else 0) ∧ State.reset.pc = 0 ∧
  State.reset.flags = ⟨false, false, false⟩ ∧ State.reset.running = true ∧ State.reset.fault = none ∧
  State.reset.out = [] ∧ (∀ a, State.reset.mem.read a = 0)

/-- Launching an image of at most 256 bytes gives the reset state with memory holding the image from address 0 and 0
beyond it, in canonical form (R43, R141); a longer one is refused (D12, log 11). -/
def Obligations.LaunchLoadsTheImage : Prop :=
  ∀ image : List Byte,
    (image.length ≤ 256 → ∃ s, launch image = .next s ∧ (∀ a, s.mem.read a = image.getD a 0) ∧ s.mem.wf = true ∧
      s = { State.reset with mem := s.mem }) ∧
    (256 < image.length → launch image = .refused .imageTooLong)

/-! ## The cycle -/

/-- Where a cycle may start and the three bytes at `pc` decode to an instruction, the step is that instruction's `exec`
at that same state: nothing is added around it (R60; the fetch needs `pc + 2 <= 255`, R62). -/
def Obligations.StepRunsTheDecodedInstruction : Prop :=
  ∀ (s : State) (i : Instr), s.running = true → s.fault = none → s.pc.toNat ≤ 253 →
    decodeTriplet (s.mem.read s.pc.toNat) (s.mem.read (s.pc.toNat + 1)) (s.mem.read (s.pc.toNat + 2)) = .ok i →
    step s = exec i s

/-- A fetch past the last cell faults, whatever the opcode: at 256 with opcode 0 recorded, at 255 and 254 with the
opcode fetched; the address recorded is 256 (R61, R62, which rest on D5, log 4). -/
def Obligations.FetchPastTheEndFaults : Prop :=
  ∀ s : State, s.canCycle →
    (s.pc.toNat = 256 → step s = .next (faulted s .outOfBounds 0 (.mem 256))) ∧
    (s.pc.toNat = 255 → step s = .next (faulted s .outOfBounds (s.mem.read 255) (.mem 256))) ∧
    (s.pc.toNat = 254 → step s = .next (faulted s .outOfBounds (s.mem.read 254) (.mem 256)))

/-- UnknownOpcode is raised exactly when the three reads succeed and the byte at `pc` is no instruction's opcode, and
its record is as R121 says. -/
def Obligations.UnknownOpcodeIsFatal : Prop :=
  ∀ s : State, s.canCycle →
    (s.pc.toNat ≤ 253 → (∀ i, opcodeOf i ≠ s.mem.read s.pc.toNat) →
      step s = .next (faulted s .unknownOpcode (s.mem.read s.pc.toNat) (.opcode (s.mem.read s.pc.toNat)))) ∧
    (∀ t r, step s = .next t → t.fault = some r → r.kind = .unknownOpcode →
      s.pc.toNat ≤ 253 ∧ ∀ i, opcodeOf i ≠ s.mem.read s.pc.toNat)

/-- The loop condition (R65): a cycle starts exactly in a running state with no fault latched, reset is one, and no
cycle follows a HLT, which leaves `pc`, or a fault. R65 names no stop: that `step` answers `runHalted` and `runFaulted`
at the two ends is the model's choice (log 7, DESIGN CHOICE), so this is derived. -/
def Obligations.CycleStartsOnlyWhileRunning : Prop :=
  (∀ s : State, (∃ t, step s = .next t) ↔ s.running = true ∧ s.fault = none) ∧
  (State.reset.running = true ∧ State.reset.fault = none) ∧
  (∀ s : State, s.runs .hlt → ∃ t, step s = .next t ∧ t.pc = s.pc ∧ step t = .fault .runHalted) ∧
  (∀ (s t : State) (r : FaultRecord), step s = .next t → t.fault = some r → step t = .fault (.runFaulted r))

/-- A cycle that starts has one of three outcomes: next, halted by HLT, or faulted with no other change (R59, which the
spec marks as derived). -/
def Obligations.CycleHasOneOfThreeOutcomes : Prop :=
  ∀ s : State, s.canCycle → ∃ t, step s = .next t ∧
    ((t.running = true ∧ t.fault = none ∧ ¬ s.runs .hlt) ∨
     (t.running = false ∧ t.fault = none ∧ s.runs .hlt) ∨
     (∃ r, t = { s with fault := some r }))

/-- Every cycle that starts takes exactly the first fault of R127's order, with the record R120 and R122 give it, and
none where every check passes. The order of the index and divisor checks is the spec's decision D10 (log 17). -/
def Obligations.CycleTakesTheFirstFaultInPriorityOrder : Prop :=
  ∀ s : State, s.canCycle → ∃ t, step s = .next t ∧
    t.fault = (firstFault s).map fun f => ⟨f.1, s.pc, f.2.1, f.2.2⟩

/-- Fault entry (R125, decision D8, log 6): a step that latches a fault changes nothing else, records the `pc` of the
cycle, and no cycle follows; that `step` answers `runFaulted` there is the model's choice (log 7, DESIGN CHOICE). -/
def Obligations.FaultEntryChangesOnlyTheLatch : Prop :=
  ∀ (s t : State) (r : FaultRecord), step s = .next t → t.fault = some r →
    t = { s with fault := some r } ∧ r.pc = s.pc ∧ step t = .fault (.runFaulted r)

/-- An instruction with a register operand byte above 7 raises OutOfBounds for the first such byte, before any effect,
also where it would not read the register; a well-formed one never does (R14, R48, decision D6, log 4). -/
def Obligations.RegisterBytesAboveSevenFault : Prop :=
  ∀ (s : State) (i : Instr), s.runs i →
    (i.wellFormed = false → ∃ b, (operandBytes i).find? (fun b => decide (7 < b.toNat)) = some b ∧
      step s = .next (faulted s .outOfBounds (opcodeOf i) (.reg b))) ∧
    (i.wellFormed = true → ∀ t r b, step s = .next t → t.fault = some r → r.info ≠ .reg b)

/-! ## The ALU -/

/-- ADD, SUB and MUL. -/
def Obligations.AddSubMulWrapModulo256 : Prop :=
  BinaryRule .add 0xA0 (fun x y => (x + y) % 256) ∧
  BinaryRule .sub 0xA1 (fun x y => (256 + x - y) % 256) ∧
  BinaryRule .mul 0xA2 (fun x y => x * y % 256)

/-- AND, OR and XOR. -/
def Obligations.AndOrXorAreBitwise : Prop :=
  BinaryRule .and 0xA8 (fun x y => x &&& y) ∧
  BinaryRule .or 0xAA (fun x y => x ||| y) ∧
  BinaryRule .xor 0xAB (fun x y => x ^^^ y)

/-- SHL and SHR by the whole byte of the count (decision D15, log 15). -/
def Obligations.ShiftsTakeTheWholeCount : Prop :=
  BinaryRule .shl 0xAC (fun x y => x * 2 ^ y % 256) ∧
  BinaryRule .shr 0xAD (fun x y => x / 2 ^ y)

/-- DIV and MOD: floor quotient and remainder (decisions D2, D14, log 2, log 15), DivideByZero for a zero divisor. -/
def Obligations.DivModFloorOrFault : Prop :=
  DivisionRule .div 0xA3 (fun x y => x / y) ∧ DivisionRule .mod 0xA4 (fun x y => x % y)

/-- NOT of the register of operand byte 1 (decision D3, log 3). -/
def Obligations.NotComplementsItsRegister : Prop :=
  UnaryRule .not 0x69 (fun x => 255 - x)

/-- INC and DEC. -/
def Obligations.IncDecWrap : Prop :=
  UnaryRule .inc 0x65 (fun x => (x + 1) % 256) ∧ UnaryRule .dec 0x66 (fun x => (x + 255) % 256)

/-- CMP writes all three flags from the unsigned comparison, exactly one of them 1, and no register; `pc + 3`. -/
def Obligations.CmpSetsExactlyOneFlag : Prop :=
  ∀ (opa opb : Byte) (s : State),
    encode (.cmp opa opb) = [0xA7, opa, opb] ∧
    (∀ ra rb : RegIdx, opa.toNat = ra.val → opb.toNat = rb.val →
      ∃ t, exec (.cmp opa opb) s = .next t ∧
        (t.flags.e = true ↔ (s.reg ra).toNat = (s.reg rb).toNat) ∧
        (t.flags.l = true ↔ (s.reg ra).toNat < (s.reg rb).toNat) ∧
        (t.flags.g = true ↔ (s.reg rb).toNat < (s.reg ra).toNat) ∧
        (t.flags = ⟨true, false, false⟩ ∨ t.flags = ⟨false, true, false⟩ ∨ t.flags = ⟨false, false, true⟩) ∧
        t.pc = s.pc + 3 ∧ (∀ j, t.reg j = s.reg j) ∧ SameMem s t ∧
        t.running = s.running ∧ t.fault = s.fault ∧ t.out = s.out) ∧
    (7 < opa.toNat → RaisesReg (.cmp opa opb) s 0xA7 opa) ∧
    (opa.toNat ≤ 7 → 7 < opb.toNat → RaisesReg (.cmp opa opb) s 0xA7 opb)

/-- DivideByZero is raised by DIV and MOD only, exactly when both index bytes are good and the divisor register holds 0,
with the record R122 gives, and the dividend is not written. -/
def Obligations.DivideByZeroOnlyForZeroDivisor : Prop :=
  (∀ (opa opb : Byte) (ra rb : RegIdx) (s : State), opa.toNat = ra.val → opb.toNat = rb.val → s.reg rb = 0 →
    (∃ t, exec (.div opa opb) s = .next t ∧ t.fault = some ⟨.divideByZero, s.pc, 0xA3, .divisor rb⟩ ∧
      t.reg ra = s.reg ra) ∧
    (∃ t, exec (.mod opa opb) s = .next t ∧ t.fault = some ⟨.divideByZero, s.pc, 0xA4, .divisor rb⟩ ∧
      t.reg ra = s.reg ra)) ∧
  (∀ (i : Instr) (s t : State) (r : FaultRecord), s.fault = none → exec i s = .next t → t.fault = some r →
    r.kind = .divideByZero → ∃ (opa opb : Byte) (ra rb : RegIdx), (i = .div opa opb ∨ i = .mod opa opb) ∧
      opa.toNat = ra.val ∧ opb.toNat = rb.val ∧ s.reg rb = 0)

/-- The division law of R85: with a divisor that is not 0, the dividend is quotient times divisor plus remainder, and
the remainder is less than the divisor. -/
def Obligations.QuotientTimesDivisorPlusRemainder : Prop :=
  ∀ (opa opb : Byte) (ra rb : RegIdx) (s : State), opa.toNat = ra.val → opb.toNat = rb.val → s.reg rb ≠ 0 →
    ∃ t u, exec (.div opa opb) s = .next t ∧ exec (.mod opa opb) s = .next u ∧
      (s.reg ra).toNat = (t.reg ra).toNat * (s.reg rb).toNat + (u.reg ra).toNat ∧
      (u.reg ra).toNat < (s.reg rb).toNat

/-! ## LDI, PRN, HLT, NOP -/

/-- LDI stores its immediate as it stands. -/
def Obligations.LdiLoadsItsImmediate : Prop :=
  ∀ (opa imm : Byte) (s : State),
    encode (.ldi opa imm) = [0x82, opa, imm] ∧
    (∀ r : RegIdx, opa.toNat = r.val →
      ∃ t, exec (.ldi opa imm) s = .next t ∧ t.reg r = imm ∧ t.pc = s.pc + 3 ∧ SameBut [r] s t ∧ SameMem s t) ∧
    (7 < opa.toNat → RaisesReg (.ldi opa imm) s 0x82 opa)

/-- PRN appends the register's 8-bit value to OUT (its text form is the host's, decision D18, log 21). -/
def Obligations.PrnAppendsItsRegister : Prop :=
  ∀ (opa : Byte) (s : State),
    encode (.prn opa) = [0x47, opa] ∧
    (∀ r : RegIdx, opa.toNat = r.val →
      ∃ t, exec (.prn opa) s = .next t ∧ t.out = s.out ++ [s.reg r] ∧ t.pc = s.pc + 2 ∧
        (∀ j, t.reg j = s.reg j) ∧ t.flags = s.flags ∧ SameMem s t ∧ t.running = s.running ∧ t.fault = s.fault) ∧
    (7 < opa.toNat → RaisesReg (.prn opa) s 0x47 opa)

/-- HLT clears `running` and changes nothing else; the state it leaves is final (decision D23, log 7). -/
def Obligations.HltEndsTheRun : Prop :=
  encode .hlt = [0x01] ∧
  ∀ s : State, ∃ t, exec .hlt s = .next t ∧ t.running = false ∧ t.pc = s.pc ∧ (∀ j, t.reg j = s.reg j) ∧
    t.flags = s.flags ∧ SameMem s t ∧ t.fault = s.fault ∧ t.out = s.out ∧ ∀ u, step t ≠ .next u

/-- NOP adds 1 to `pc` and changes nothing else (the width is decision D16, log 14). -/
def Obligations.NopAdvancesByOne : Prop :=
  encode .nop = [0x00] ∧
  ∀ s : State, ∃ t, exec .nop s = .next t ∧ t.pc = s.pc + 1 ∧ SameBut [] s t ∧ SameMem s t

/-! ## The stack -/

/-- PUSH (R101): its register is the one its re-read of the byte at `pc + 1` names (R103); the stack pointer goes down by
1 modulo 256; the byte stored there is the register's value after the decrement (PUSH R7 pushes the decremented value,
decision D21, log 13); no other cell changes. The cell stored to reads back in canonical memory, which every step keeps.
That `exec` follows memory whatever operand byte `r` it is given, and raises OutOfBounds for a `pc + 1` of 256 or more,
is the model's choice (log 12, DESIGN CHOICE): in a cycle the re-read cannot fault and gives `r`
(StackRereadIsTheOperandByte). -/
def Obligations.PushStoresAtTheDecrementedPointer : Prop :=
  ∀ (r sel : Byte) (s : State),
    encode (.push r) = [0x45, r] ∧
    (256 ≤ s.pc.toNat + 1 → exec (.push r) s = .next (faulted s .outOfBounds 0x45 (.mem (s.pc.toNat + 1)))) ∧
    (memRead s (s.pc.toNat + 1) = .ok sel → 7 < sel.toNat → RaisesReg (.push r) s 0x45 sel) ∧
    (∀ rr : RegIdx, memRead s (s.pc.toNat + 1) = .ok sel → sel.toNat = rr.val → s.mem.wf = true →
      ∃ t, exec (.push r) s = .next t ∧ (t.reg 7).toNat = ((s.reg 7).toNat + 255) % 256 ∧
        s.pushAddr = (t.reg 7).toNat ∧ t.mem.read s.pushAddr = t.reg rr ∧
        (∀ a, a ≠ s.pushAddr → t.mem.read a = s.mem.read a) ∧ t.pc = s.pc + 2 ∧ SameBut [7] s t)

/-- POP (R102): its register, named by the re-read, takes the byte at the stack pointer; then the stack pointer goes up
by 1 modulo 256 (POP R7 leaves the popped byte plus 1, decision D21, log 13); memory is unchanged. That `exec` follows
memory whatever operand byte `r` it is given, and raises OutOfBounds for a `pc + 1` of 256 or more, is the model's choice
(log 12, DESIGN CHOICE): in a cycle the re-read cannot fault and gives `r` (StackRereadIsTheOperandByte). -/
def Obligations.PopTakesTheTopOfTheStack : Prop :=
  ∀ (r sel : Byte) (s : State),
    encode (.pop r) = [0x46, r] ∧
    (256 ≤ s.pc.toNat + 1 → exec (.pop r) s = .next (faulted s .outOfBounds 0x46 (.mem (s.pc.toNat + 1)))) ∧
    (memRead s (s.pc.toNat + 1) = .ok sel → 7 < sel.toNat → RaisesReg (.pop r) s 0x46 sel) ∧
    (∀ rr : RegIdx, memRead s (s.pc.toNat + 1) = .ok sel → sel.toNat = rr.val →
      ∃ t, exec (.pop r) s = .next t ∧
        (rr ≠ 7 → t.reg rr = s.mem.read (s.reg 7).toNat ∧ (t.reg 7).toNat = ((s.reg 7).toNat + 1) % 256) ∧
        (rr = 7 → (t.reg 7).toNat = ((s.mem.read (s.reg 7).toNat).toNat + 1) % 256) ∧
        t.pc = s.pc + 2 ∧ SameBut [rr, 7] s t ∧ SameMem s t)

/-- In every cycle that runs PUSH or POP, the re-read of the byte at `pc + 1` gives the operand byte the engine passed
(R103, which the spec marks as derived). -/
def Obligations.StackRereadIsTheOperandByte : Prop :=
  ∀ (s : State) (r : Byte), (s.runs (.push r) ∨ s.runs (.pop r)) → memRead s (s.pc.toNat + 1) = .ok r

/-- PUSH of a register, then POP into a register, neither of them R7: the stack pointer is restored and the second
register holds the first one's value (R104). -/
def Obligations.PopAfterPushRestoresValueAndPointer : Prop :=
  ∀ (r r' : RegIdx) (s t : State), r ≠ 7 → r' ≠ 7 → s.mem.wf = true → s.runs (.push (regByte r)) →
    step s = .next t → t.runs (.pop (regByte r')) →
    ∃ u, step t = .next u ∧ u.reg 7 = s.reg 7 ∧ u.reg r' = s.reg r

/-- A byte that PUSH stores is what the very next fetch reads where the fetch covers its cell (R41, which the spec marks
as derived; what makes self-modifying code work with no fence). -/
def Obligations.NextFetchSeesThePushedByte : Prop :=
  ∀ (r : RegIdx) (s t : State) (f : Triplet), s.mem.wf = true → s.runs (.push (regByte r)) → step s = .next t →
    fetch t = .ok f →
    (t.pc.toNat = s.pushAddr → f.ir = t.reg r) ∧ (t.pc.toNat + 1 = s.pushAddr → f.opa = t.reg r) ∧
    (t.pc.toNat + 2 = s.pushAddr → f.opb = t.reg r)

/-! ## Control transfer -/

/-- CALL (R111): the return address `pc + 2` is stored at the decremented stack pointer and `pc` takes the register's
value, read after the decrement (CALL R7, decision D21, log 13). For a `pc` above 253, where no CALL is fetched, the
byte stored is the sum's low 8 bits (log 18). -/
def Obligations.CallPushesTheReturnAddress : Prop :=
  ∀ (r : Byte) (s : State),
    encode (.call r) = [0x50, r] ∧
    (7 < r.toNat → RaisesReg (.call r) s 0x50 r) ∧
    (∀ rr : RegIdx, r.toNat = rr.val → s.mem.wf = true →
      ∃ t, exec (.call r) s = .next t ∧ (t.reg 7).toNat = ((s.reg 7).toNat + 255) % 256 ∧
        s.pushAddr = (t.reg 7).toNat ∧ (t.mem.read s.pushAddr).toNat = (s.pc.toNat + 2) % 256 ∧
        (∀ a, a ≠ s.pushAddr → t.mem.read a = s.mem.read a) ∧ t.pc.toNat = (t.reg rr).toNat ∧ SameBut [7] s t)

/-- RET: `pc` takes the byte at the stack pointer, zero-extended, and the stack pointer goes up by 1 modulo 256. -/
def Obligations.RetPopsThePc : Prop :=
  encode .ret = [0x11] ∧
  ∀ s : State, ∃ t, exec .ret s = .next t ∧ t.pc.toNat = (s.mem.read (s.reg 7).toNat).toNat ∧
    (t.reg 7).toNat = ((s.reg 7).toNat + 1) % 256 ∧ SameBut [7] s t ∧ SameMem s t

/-- A RET that finds the stack pointer and the stacked byte as a CALL left them returns to that CALL's `pc + 2` and
restores the stack pointer (R111, R112). -/
def Obligations.RetReturnsAfterTheCall : Prop :=
  ∀ (r : RegIdx) (s t u : State), s.mem.wf = true → s.runs (.call (regByte r)) → step s = .next t → u.runs .ret →
    u.reg 7 = t.reg 7 → u.mem.read (u.reg 7).toNat = t.mem.read (t.reg 7).toNat →
    ∃ v, step u = .next v ∧ v.pc.toNat = s.pc.toNat + 2 ∧ v.reg 7 = s.reg 7

/-- JMP. -/
def Obligations.JmpLoadsThePc : Prop :=
  ∀ (opa : Byte) (s : State),
    encode (.jmp opa) = [0x54, opa] ∧
    (∀ r : RegIdx, opa.toNat = r.val →
      ∃ t, exec (.jmp opa) s = .next t ∧ t.pc.toNat = (s.reg r).toNat ∧ SameBut [] s t ∧ SameMem s t) ∧
    (7 < opa.toNat → RaisesReg (.jmp opa) s 0x54 opa)

/-- JEQ. -/
def Obligations.JeqJumpsIfEqual : Prop := ConditionalJumpRule .jeq 0x55 true

/-- JNE, on the Equal flag alone: before any CMP it is taken (decision D13). -/
def Obligations.JneJumpsIfNotEqual : Prop := ConditionalJumpRule .jne 0x56 false

/-! ## Rules about the whole machine -/

/-- R17: what every instruction does to `pc`, and that a faulting one leaves it. -/
def Obligations.PcUpdatesAreTheListOfR17 : Prop :=
  ∀ (i : Instr) (s t : State), s.fault = none → exec i s = .next t →
    (t.fault = none → PcUpdate i s t) ∧ (t.fault ≠ none → t.pc = s.pc)

/-- CMP is the only instruction that writes a flag; after a CMP that completes exactly one is 1, and before the first
one, from reset, none is (R19, R20). -/
def Obligations.OnlyCmpWritesFlags : Prop :=
  (∀ (i : Instr) (s t : State), exec i s = .next t → (∀ a b, i ≠ .cmp a b) → t.flags = s.flags) ∧
  (∀ (a b : Byte) (s t : State), s.fault = none → exec (.cmp a b) s = .next t → t.fault = none →
    t.flags = ⟨true, false, false⟩ ∨ t.flags = ⟨false, true, false⟩ ∨ t.flags = ⟨false, false, true⟩) ∧
  State.reset.flags = ⟨false, false, false⟩

/-- JEQ and JNE are the only readers of the flags, and they read Equal only: changing the other two flags (or, for any
other instruction, all three) changes nothing else an instruction does (R20). -/
def Obligations.OnlyEqualIsEverRead : Prop :=
  ∀ (i : Instr) (s : State) (f : Flags), (f.e = s.flags.e ∨ ∀ r, i ≠ .jeq r ∧ i ≠ .jne r) →
    ∃ t u, exec i s = .next t ∧ exec i { s with flags := f } = .next u ∧ u = { t with flags := u.flags }

/-- HLT is the only instruction that writes `running`, to 0; nothing sets it to 1; a cycle starts only while it is 1 and
no fault is latched (R21). -/
def Obligations.OnlyHltWritesRunning : Prop :=
  State.reset.running = true ∧
  (∀ (i : Instr) (s t : State), exec i s = .next t → t.running = if i = .hlt then false else s.running) ∧
  (∀ s t : State, step s = .next t → s.running = true ∧ s.fault = none)

/-- OUT is empty at reset, PRN appends one value per execution, no other instruction changes it, and no instruction reads
it (R23). -/
def Obligations.OnlyPrnWritesOutAndNothingReadsIt : Prop :=
  State.reset.out = [] ∧
  (∀ (i : Instr) (s t : State), exec i s = .next t →
    t.out = s.out ∨ ∃ (r : Byte) (rr : RegIdx), i = .prn r ∧ r.toNat = rr.val ∧ t.out = s.out ++ [s.reg rr]) ∧
  (∀ (r : Byte) (rr : RegIdx) (s : State), r.toNat = rr.val →
    ∃ t, exec (.prn r) s = .next t ∧ t.out = s.out ++ [s.reg rr]) ∧
  (∀ (i : Instr) (s t : State) (o : List Byte), exec i s = .next t →
    ∃ u, exec i { s with out := o ++ s.out } = .next u ∧ u = { t with out := o ++ t.out })

/-- A cycle changes no register but those R15's table says its instruction writes. -/
def Obligations.RegistersChangeOnlyAsTheTableSays : Prop :=
  ∀ (i : Instr) (s t : State), s.runs i → step s = .next t → ∀ j, ¬ WritesReg i j → t.reg j = s.reg j

/-- A cycle changes no memory but the byte at the decremented stack pointer, and that only in PUSH and CALL (R32); a
cycle that runs no instruction changes none. -/
def Obligations.MemoryChangesOnlyByPushAndCall : Prop :=
  ∀ s t : State, step s = .next t → ∀ a,
    ¬ (a = s.pushAddr ∧ ∃ i, s.runs i ∧ StoresByte i) → t.mem.read a = s.mem.read a

/-! ## Memory -/

/-- The memory primitives (R31, R35; that an address of 256 or more faults is decision D5, log 4): in range a write
succeeds, a later read gives the byte written, every other cell reads as before and the canonical form stays; out of
range both raise OutOfBounds with the address. -/
def Obligations.MemoryReadsTheLatestWrite : Prop :=
  ∀ (s : State) (a : Nat) (v : Byte), s.mem.wf = true →
    (a < 256 → ∃ t, memWrite s a v = .ok t ∧ t = { s with mem := t.mem } ∧ t.mem.wf = true ∧ memRead t a = .ok v ∧
      ∀ b, b ≠ a → memRead t b = memRead s b) ∧
    (256 ≤ a → memWrite s a v = .error (.memOutOfBounds a) ∧ memRead s a = .error (.memOutOfBounds a))

/-- Two memories in canonical form whose cells read the same are the same list: equal memories are equal data. -/
def Obligations.CanonicalMemoriesAreDeterminedByTheirCells : Prop :=
  ∀ m m' : Memory, m.wf = true → m'.wf = true → (∀ a, m.read a = m'.read a) → m = m'

/-! ## Invariants -/

/-- The reset state meets the machine invariant. -/
def Obligations.ResetMeetsTheMachineInvariant : Prop := State.reset.Inv

/-- Every step keeps the machine invariant: canonical memory, exclusive flags, `pc` in 0..256 (R28), and the shape of the
fault record (R120, R124, R125), from every state that meets it. -/
def Obligations.StepKeepsTheMachineInvariant : Prop :=
  ∀ s t : State, s.Inv → step s = .next t → t.Inv

/-- R28, of every state that completed cycles reach from the launch state of any image; the step lemma it comes from is
StepKeepsTheMachineInvariant. -/
def Obligations.ReachableStatesSatisfyR28 : Prop :=
  ∀ (image : List Byte) (s₀ s : State), launch image = .next s₀ → Steps s₀ s →
    (∀ j, (s.reg j).toNat ≤ 255) ∧ (∀ a, (s.mem.read a).toNat ≤ 255) ∧
    ¬ (s.flags.e = true ∧ s.flags.l = true) ∧ ¬ (s.flags.e = true ∧ s.flags.g = true) ∧
    ¬ (s.flags.l = true ∧ s.flags.g = true) ∧ s.pc.toNat ≤ 256 ∧
    ∀ t, Steps s t → (s.fault ≠ none → t.fault = s.fault) ∧ (s.running = false → t.running = false) ∧
      ∃ new, t.out = s.out ++ new

/-- Nothing ever raises UnsupportedAluOp: no state that completed cycles reach from a launch has it latched (R124, which
rests on decision D22, log 19). -/
def Obligations.UnsupportedAluOpIsNeverLatched : Prop :=
  ∀ (image : List Byte) (s₀ s : State) (r : FaultRecord), launch image = .next s₀ → Steps s₀ s → s.fault = some r →
    r.kind ≠ .unsupportedAluOp
end

