-- ==== Sys2Proof/Laws/Alu.lean ====
section
/-! SUPPORT. The ALU functions in terms of the operations on bit vectors: one lemma each, and the shift counts of 8 and
more (D15). -/

namespace Sys2Proof.Machine

theorem aluAdd_eq (x y : Byte) : aluAdd x y = x + y := by
  apply BitVec.eq_of_toNat_eq; simp [aluAdd]

theorem aluSub_eq (x y : Byte) : aluSub x y = x - y := by
  apply BitVec.eq_of_toNat_eq
  have := x.isLt
  have := y.isLt
  rw [aluSub, BitVec.toNat_ofInt, BitVec.toNat_sub]
  omega

theorem aluMul_eq (x y : Byte) : aluMul x y = x * y := by
  apply BitVec.eq_of_toNat_eq; simp [aluMul]

theorem aluDiv_eq (x y : Byte) : aluDiv x y = x / y := by
  apply BitVec.eq_of_toNat_eq
  have := Nat.div_le_self x.toNat y.toNat
  have := x.isLt
  simp [aluDiv]; omega

theorem aluMod_eq (x y : Byte) : aluMod x y = x % y := by
  apply BitVec.eq_of_toNat_eq
  have := Nat.mod_le x.toNat y.toNat
  have := x.isLt
  simp [aluMod]; omega

theorem aluNot_eq (x : Byte) : aluNot x = ~~~x := by
  apply BitVec.eq_of_toNat_eq
  have := x.isLt
  simp [aluNot]; omega

theorem aluInc_eq (x : Byte) : aluInc x = x + 1 := by
  apply BitVec.eq_of_toNat_eq; simp [aluInc]

theorem aluDec_eq (x : Byte) : aluDec x = x - 1 := by
  apply BitVec.eq_of_toNat_eq
  have := x.isLt
  rw [aluDec, BitVec.toNat_ofInt, BitVec.toNat_sub]
  simp
  omega

theorem aluShl_eq (x y : Byte) : aluShl x y = x <<< y.toNat := by
  apply BitVec.eq_of_toNat_eq; simp [aluShl, Nat.shiftLeft_eq]

theorem aluShr_eq (x y : Byte) : aluShr x y = x >>> y.toNat := by
  apply BitVec.eq_of_toNat_eq
  have := Nat.div_le_self x.toNat (2 ^ y.toNat)
  have := x.isLt
  simp [aluShr, Nat.shiftRight_eq_div_pow]; omega

theorem aluShl_of_ge (x y : Byte) (h : 8 ≤ y.toNat) : aluShl x y = 0 := by
  rw [aluShl_eq]; exact BitVec.shiftLeft_eq_zero h

theorem aluShr_of_ge (x y : Byte) (h : 8 ≤ y.toNat) : aluShr x y = 0 := by
  rw [aluShr_eq]; exact BitVec.ushiftRight_eq_zero h

end Sys2Proof.Machine
end

