-- ==== Sys2Proof/Laws/Decode.lean ====
section
/-! SUPPORT. The opcode table: dispatch is the inverse of `opc`, and what the decoder answers. -/

namespace Sys2Proof

@[simp] theorem dispatch_opc (m : Mnemonic) : dispatch (opc m) = some m := by
  cases m <;> rfl

theorem opc_of_dispatch {b : Byte} {m : Mnemonic} (h : dispatch b = some m) : opc m = b := by
  have := List.find?_some h
  simp at this
  exact this.2

theorem dispatch_eq_some {b : Byte} {m : Mnemonic} : dispatch b = some m ↔ opc m = b :=
  ⟨opc_of_dispatch, fun h => h ▸ dispatch_opc m⟩

theorem dispatch_eq_none {b : Byte} : dispatch b = none ↔ ∀ m, opc m ≠ b := by
  constructor
  · intro h m e
    simp [← e] at h
  · intro h
    cases hd : dispatch b with
    | none => rfl
    | some m => exact absurd (opc_of_dispatch hd) (h m)

@[simp] theorem mnemonicOf_build (m : Mnemonic) (opa opb : Byte) : mnemonicOf (build m opa opb) = m := by
  cases m <;> rfl

/-- The decoder answers exactly the table's instructions with the operand bytes of their format. -/
theorem decodeTriplet_ok {ir opa opb : Byte} {i : Instr} :
    decodeTriplet ir opa opb = .ok i ↔ ∃ m, opc m = ir ∧ build m opa opb = i := by
  unfold decodeTriplet
  split
  next m h => simp [← opc_of_dispatch h, ← dispatch_eq_some]
  next h => simpa using fun m e => absurd e (dispatch_eq_none.mp h m)

theorem decodeTriplet_error {ir opa opb : Byte} {x : DecodeError} :
    decodeTriplet ir opa opb = .error x ↔ dispatch ir = none ∧ x = .unknownOpcode ir := by
  unfold decodeTriplet
  split
  next m h => simp [h]
  next h => simp [h, eq_comm]

/-- The opcode byte fetched is the instruction's. -/
theorem opcodeOf_of_decodeTriplet {ir opa opb : Byte} {i : Instr} (h : decodeTriplet ir opa opb = .ok i) :
    opcodeOf i = ir := by
  obtain ⟨m, hm, rfl⟩ := decodeTriplet_ok.mp h
  simpa [opcodeOf] using hm

end Sys2Proof
end

