-- ==== Sys2Proof/Laws/State.lean ====
section
/-! SUPPORT. The state record: one lemma per field per update, and the reads of registers after each update. -/

namespace Sys2Proof.Machine

variable (s : State)

/-! ### `store` -/

@[simp] theorem State.store_mem (a : Nat) (v : Byte) : (s.store a v).mem = s.mem.write a v := rfl
@[simp] theorem State.store_regs (a : Nat) (v : Byte) : (s.store a v).regs = s.regs := rfl
@[simp] theorem State.store_pc (a : Nat) (v : Byte) : (s.store a v).pc = s.pc := rfl
@[simp] theorem State.store_flags (a : Nat) (v : Byte) : (s.store a v).flags = s.flags := rfl
@[simp] theorem State.store_running (a : Nat) (v : Byte) : (s.store a v).running = s.running := rfl
@[simp] theorem State.store_fault (a : Nat) (v : Byte) : (s.store a v).fault = s.fault := rfl
@[simp] theorem State.store_out (a : Nat) (v : Byte) : (s.store a v).out = s.out := rfl
@[simp] theorem State.store_reg (a : Nat) (v : Byte) (j : RegIdx) : (s.store a v).reg j = s.reg j := rfl

/-! ### `setReg` -/

@[simp] theorem State.setReg_mem (i : RegIdx) (v : Byte) : (s.setReg i v).mem = s.mem := rfl
@[simp] theorem State.setReg_regs (i : RegIdx) (v : Byte) : (s.setReg i v).regs = s.regs.set i v := rfl
@[simp] theorem State.setReg_pc (i : RegIdx) (v : Byte) : (s.setReg i v).pc = s.pc := rfl
@[simp] theorem State.setReg_flags (i : RegIdx) (v : Byte) : (s.setReg i v).flags = s.flags := rfl
@[simp] theorem State.setReg_running (i : RegIdx) (v : Byte) : (s.setReg i v).running = s.running := rfl
@[simp] theorem State.setReg_fault (i : RegIdx) (v : Byte) : (s.setReg i v).fault = s.fault := rfl
@[simp] theorem State.setReg_out (i : RegIdx) (v : Byte) : (s.setReg i v).out = s.out := rfl

/-! ### `setFlags` -/

@[simp] theorem State.setFlags_mem (f : Flags) : (s.setFlags f).mem = s.mem := rfl
@[simp] theorem State.setFlags_regs (f : Flags) : (s.setFlags f).regs = s.regs := rfl
@[simp] theorem State.setFlags_pc (f : Flags) : (s.setFlags f).pc = s.pc := rfl
@[simp] theorem State.setFlags_flags (f : Flags) : (s.setFlags f).flags = f := rfl
@[simp] theorem State.setFlags_running (f : Flags) : (s.setFlags f).running = s.running := rfl
@[simp] theorem State.setFlags_fault (f : Flags) : (s.setFlags f).fault = s.fault := rfl
@[simp] theorem State.setFlags_out (f : Flags) : (s.setFlags f).out = s.out := rfl
@[simp] theorem State.setFlags_reg (f : Flags) (j : RegIdx) : (s.setFlags f).reg j = s.reg j := rfl

/-! ### `setPc` -/

@[simp] theorem State.setPc_mem (p : PcWord) : (s.setPc p).mem = s.mem := rfl
@[simp] theorem State.setPc_regs (p : PcWord) : (s.setPc p).regs = s.regs := rfl
@[simp] theorem State.setPc_pc (p : PcWord) : (s.setPc p).pc = p := rfl
@[simp] theorem State.setPc_flags (p : PcWord) : (s.setPc p).flags = s.flags := rfl
@[simp] theorem State.setPc_running (p : PcWord) : (s.setPc p).running = s.running := rfl
@[simp] theorem State.setPc_fault (p : PcWord) : (s.setPc p).fault = s.fault := rfl
@[simp] theorem State.setPc_out (p : PcWord) : (s.setPc p).out = s.out := rfl
@[simp] theorem State.setPc_reg (p : PcWord) (j : RegIdx) : (s.setPc p).reg j = s.reg j := rfl

/-! ### `output` -/

@[simp] theorem State.output_mem (v : Byte) : (s.output v).mem = s.mem := rfl
@[simp] theorem State.output_regs (v : Byte) : (s.output v).regs = s.regs := rfl
@[simp] theorem State.output_pc (v : Byte) : (s.output v).pc = s.pc := rfl
@[simp] theorem State.output_flags (v : Byte) : (s.output v).flags = s.flags := rfl
@[simp] theorem State.output_running (v : Byte) : (s.output v).running = s.running := rfl
@[simp] theorem State.output_fault (v : Byte) : (s.output v).fault = s.fault := rfl
@[simp] theorem State.output_out (v : Byte) : (s.output v).out = s.out ++ [v] := rfl
@[simp] theorem State.output_reg (v : Byte) (j : RegIdx) : (s.output v).reg j = s.reg j := rfl

/-! ### `halt` -/

@[simp] theorem State.halt_mem : (s.halt).mem = s.mem := rfl
@[simp] theorem State.halt_regs : (s.halt).regs = s.regs := rfl
@[simp] theorem State.halt_pc : (s.halt).pc = s.pc := rfl
@[simp] theorem State.halt_flags : (s.halt).flags = s.flags := rfl
@[simp] theorem State.halt_running : (s.halt).running = false := rfl
@[simp] theorem State.halt_fault : (s.halt).fault = s.fault := rfl
@[simp] theorem State.halt_out : (s.halt).out = s.out := rfl
@[simp] theorem State.halt_reg (j : RegIdx) : (s.halt).reg j = s.reg j := rfl

/-! ### `takeFault` -/

@[simp] theorem takeFault_mem (op : Byte) (x : Exc) : (takeFault s op x).mem = s.mem := rfl
@[simp] theorem takeFault_regs (op : Byte) (x : Exc) : (takeFault s op x).regs = s.regs := rfl
@[simp] theorem takeFault_pc (op : Byte) (x : Exc) : (takeFault s op x).pc = s.pc := rfl
@[simp] theorem takeFault_flags (op : Byte) (x : Exc) : (takeFault s op x).flags = s.flags := rfl
@[simp] theorem takeFault_running (op : Byte) (x : Exc) : (takeFault s op x).running = s.running := rfl
@[simp] theorem takeFault_fault (op : Byte) (x : Exc) : (takeFault s op x).fault = some ⟨x.kind, s.pc, op, x.info⟩ := rfl
@[simp] theorem takeFault_out (op : Byte) (x : Exc) : (takeFault s op x).out = s.out := rfl
@[simp] theorem takeFault_reg (op : Byte) (x : Exc) (j : RegIdx) : (takeFault s op x).reg j = s.reg j := rfl

/-! ### Registers -/

@[simp] theorem State.setReg_reg_same (i : RegIdx) (v : Byte) : (s.setReg i v).reg i = v := by
  simp [State.setReg, State.reg]

theorem State.setReg_reg_of_ne (v : Byte) {i j : RegIdx} (h : j ≠ i) : (s.setReg i v).reg j = s.reg j := by
  have : i.val ≠ j.val := fun e => h (Fin.ext e.symm)
  simp [State.setReg, State.reg, this]

theorem State.setReg_reg (i j : RegIdx) (v : Byte) : (s.setReg i v).reg j = if j = i then v else s.reg j := by
  split
  next h => subst h; simp
  next h => exact s.setReg_reg_of_ne v h

/-! ### The derived updates, in terms of the ones above -/

@[simp] theorem State.advance_eq (w : Nat) : s.advance w = s.setPc (s.pc + BitVec.ofNat 9 w) := rfl
@[simp] theorem State.jumpTo_eq (v : Byte) : s.jumpTo v = s.setPc (zext9 v) := rfl
@[simp] theorem State.sp_eq : s.sp = s.reg Config.sp := rfl
@[simp] theorem State.decSp_eq : s.decSp = s.setReg Config.sp (s.reg Config.sp - 1) := rfl
@[simp] theorem State.incSp_eq : s.incSp = s.setReg Config.sp (s.reg Config.sp + 1) := rfl

theorem State.pushAddr_eq : s.pushAddr = (s.reg Config.sp - 1).toNat := by simp [State.pushAddr]

/-- A control transfer's target is an 8-bit value (R67). -/
@[simp] theorem zext9_toNat (v : Byte) : (zext9 v).toNat = v.toNat := by
  simp [zext9]; omega

/-- Two states with the same fields' values are the same state. -/
theorem State.ext_fields {s t : State} (hm : t.mem = s.mem) (hr : ∀ j, t.reg j = s.reg j) (hp : t.pc = s.pc)
    (hf : t.flags = s.flags) (hn : t.running = s.running) (hx : t.fault = s.fault) (ho : t.out = s.out) : t = s := by
  obtain ⟨m, r, p, f, n, x, o⟩ := s
  obtain ⟨m', r', p', f', n', x', o'⟩ := t
  obtain rfl : r' = r := by
    apply Vector.ext
    exact fun i hi => hr ⟨i, hi⟩
  simp_all

end Sys2Proof.Machine
end

