-- ==== Sys2Proof/Laws/Ops.lean ====
section
/-! SUPPORT. What each shared operation can do: the primitives of R7 and taking a fault (the handlers' shared
shapes are in Laws/Exec.lean). -/

namespace Sys2Proof.Machine

/-! ### Memory primitives -/

theorem memRead_of_lt (s : State) {a : Nat} (h : a < 256) : memRead s a = .ok (s.mem.read a) := by
  simp [memRead, Config.memSize, h]

theorem memRead_of_ge (s : State) {a : Nat} (h : 256 ≤ a) : memRead s a = .error (.memOutOfBounds a) := by
  simp [memRead, Config.memSize, Nat.not_lt.mpr h]

theorem memRead_ok {s : State} {a : Nat} {v : Byte} : memRead s a = .ok v ↔ a < 256 ∧ s.mem.read a = v := by
  unfold memRead Config.memSize
  split <;> simp_all

theorem memRead_error {s : State} {a : Nat} {x : Exc} : memRead s a = .error x ↔ 256 ≤ a ∧ x = .memOutOfBounds a := by
  unfold memRead Config.memSize
  split <;> simp_all [eq_comm]

/-- An 8-bit address always exists (R31). -/
@[simp] theorem memRead_byte (s : State) (b : Byte) : memRead s b.toNat = .ok (s.mem.read b.toNat) :=
  memRead_of_lt s b.isLt

/-- An 8-bit address always exists (R31). -/
@[simp] theorem memWrite_byte (s : State) (b v : Byte) : memWrite s b.toNat v = .ok (s.store b.toNat v) := by
  have := b.isLt
  simp only [memWrite, Config.memSize]
  exact if_pos this

/-! ### Register operands -/

theorem regIdx_of_eq {b : Byte} {r : RegIdx} (h : b.toNat = r.val) : regIdx b = .ok r := by
  simp [regIdx, h]

theorem regIdx_ok {b : Byte} {r : RegIdx} : regIdx b = .ok r ↔ b.toNat = r.val := by
  refine ⟨fun h => ?_, regIdx_of_eq⟩
  unfold regIdx at h
  split at h
  · cases h; rfl
  · cases h

theorem regIdx_of_gt {b : Byte} (h : 7 < b.toNat) : regIdx b = .error (.regOutOfBounds b) := by
  simp [regIdx, Nat.not_lt.mpr h]

theorem regIdx_error {b : Byte} {x : Exc} : regIdx b = .error x ↔ 7 < b.toNat ∧ x = .regOutOfBounds b := by
  refine ⟨fun h => ?_, fun ⟨h, e⟩ => e ▸ regIdx_of_gt h⟩
  unfold regIdx at h
  split at h
  · cases h
  · cases h; exact ⟨by omega, rfl⟩

@[simp] theorem regByte_toNat (r : RegIdx) : (regByte r).toNat = r.val := by
  have := r.isLt
  simp only [regByte, BitVec.toNat_ofNat]
  omega

@[simp] theorem regIdx_regByte (r : RegIdx) : regIdx (regByte r) = .ok r := regIdx_of_eq (regByte_toNat r)

/-! ### The end of a handler -/

/-- A handler always answers a next state: the one it made, or its start with a fault taken. -/
theorem finish_next {s t : State} {op : Byte} {r : Except Exc State} :
    finish s op r = .next t ↔ r = .ok t ∨ ∃ x, r = .error x ∧ t = takeFault s op x := by
  cases r <;> simp [finish, eq_comm]

@[simp] theorem finish_ok (s t : State) (op : Byte) : finish s op (.ok t) = .next t := rfl

@[simp] theorem finish_error (s : State) (op : Byte) (x : Exc) : finish s op (.error x) = .next (takeFault s op x) := rfl

@[simp] theorem except_bind_ok {α β : Type} (a : α) (f : α → Except Exc β) : ((Except.ok a : Except Exc α) >>= f) = f a :=
  rfl

@[simp] theorem except_bind_error {α β : Type} (x : Exc) (f : α → Except Exc β) :
    ((Except.error x : Except Exc α) >>= f) = .error x := rfl

/-- Where a computation on Except that binds once can succeed or fail. -/
theorem except_bind_eq_ok {α β : Type} {r : Except Exc α} {f : α → Except Exc β} {b : β} :
    (r >>= f) = .ok b ↔ ∃ a, r = .ok a ∧ f a = .ok b := by
  cases r <;> simp

theorem except_bind_eq_error {α β : Type} {r : Except Exc α} {f : α → Except Exc β} {x : Exc} :
    (r >>= f) = .error x ↔ r = .error x ∨ ∃ a, r = .ok a ∧ f a = .error x := by
  cases r <;> simp

end Sys2Proof.Machine
end

