-- ==== Sys2Proof/Laws/Exec.lean ====
section
/-! SUPPORT. What every instruction can do, said once: `exec i s` answers the next state `t` exactly when `t` is the
instruction's effect on `s`, or `s` with the fault the instruction raises. -/

namespace Sys2Proof.Laws

open Sys2Proof.Machine

/-- The effect of a two-register operation that completes. -/
def binaryEffect (f : Byte → Byte → Byte) (a b : Byte) (s t : State) : Prop :=
  ∃ ra rb : RegIdx, a.toNat = ra.val ∧ b.toNat = rb.val ∧ t = (s.setReg ra (f (s.reg ra) (s.reg rb))).advance 3

/-- The effect of a two-register division that completes. -/
def divideEffect (f : Byte → Byte → Byte) (a b : Byte) (s t : State) : Prop :=
  ∃ ra rb : RegIdx, a.toNat = ra.val ∧ b.toNat = rb.val ∧ s.reg rb ≠ 0 ∧
    t = (s.setReg ra (f (s.reg ra) (s.reg rb))).advance 3

/-- The effect of a one-register operation that completes. -/
def unaryEffect (f : Byte → Byte) (a : Byte) (s t : State) : Prop :=
  ∃ r : RegIdx, a.toNat = r.val ∧ t = (s.setReg r (f (s.reg r))).advance 2

/-- The state after an instruction that completes. -/
def effect (i : Instr) (s t : State) : Prop :=
  match i with
  | .nop => t = s.advance 1
  | .hlt => t = s.halt
  | .ret => t = (s.jumpTo (s.mem.read s.sp.toNat)).incSp
  | .push _ => ∃ (sel : Byte) (r : RegIdx), memRead s (s.pc.toNat + 1) = .ok sel ∧ sel.toNat = r.val ∧
      t = (s.decSp.store s.pushAddr (s.decSp.reg r)).advance 2
  | .pop _ => ∃ (sel : Byte) (r : RegIdx), memRead s (s.pc.toNat + 1) = .ok sel ∧ sel.toNat = r.val ∧
      t = (s.setReg r (s.mem.read s.sp.toNat)).incSp.advance 2
  | .prn a => ∃ r : RegIdx, a.toNat = r.val ∧ t = (s.output (s.reg r)).advance 2
  | .call a => ∃ r : RegIdx, a.toNat = r.val ∧
      t = (s.decSp.store s.pushAddr (BitVec.ofNat 8 (s.pc.toNat + 2))).jumpTo (s.decSp.reg r)
  | .jmp a => ∃ r : RegIdx, a.toNat = r.val ∧ t = s.jumpTo (s.reg r)
  | .jeq a => ∃ r : RegIdx, a.toNat = r.val ∧ t = if s.flags.e then s.jumpTo (s.reg r) else s.advance 2
  | .jne a => ∃ r : RegIdx, a.toNat = r.val ∧ t = if !s.flags.e then s.jumpTo (s.reg r) else s.advance 2
  | .inc a => unaryEffect aluInc a s t
  | .dec a => unaryEffect aluDec a s t
  | .not a => unaryEffect aluNot a s t
  | .ldi a imm => ∃ r : RegIdx, a.toNat = r.val ∧ t = (s.setReg r imm).advance 3
  | .add a b => binaryEffect aluAdd a b s t
  | .sub a b => binaryEffect aluSub a b s t
  | .mul a b => binaryEffect aluMul a b s t
  | .div a b => divideEffect aluDiv a b s t
  | .mod a b => divideEffect aluMod a b s t
  | .cmp a b => ∃ ra rb : RegIdx, a.toNat = ra.val ∧ b.toNat = rb.val ∧
      t = (s.setFlags (compareFlags (s.reg ra) (s.reg rb))).advance 3
  | .and a b => binaryEffect aluAnd a b s t
  | .or a b => binaryEffect aluOr a b s t
  | .xor a b => binaryEffect aluXor a b s t
  | .shl a b => binaryEffect aluShl a b s t
  | .shr a b => binaryEffect aluShr a b s t

/-- A register operand byte above 7 (R14). -/
def raisesReg (a : Byte) (x : Exc) : Prop := 7 < a.toNat ∧ x = .regOutOfBounds a

/-- The first of two register operand bytes that is above 7 (R127). -/
def raisesReg₂ (a b : Byte) (x : Exc) : Prop := raisesReg a x ∨ (a.toNat ≤ 7 ∧ raisesReg b x)

/-- A bad index, else a zero divisor (R127). -/
def raisesDivide (a b : Byte) (s : State) (x : Exc) : Prop :=
  raisesReg₂ a b x ∨
    ∃ ra rb : RegIdx, a.toNat = ra.val ∧ b.toNat = rb.val ∧ s.reg rb = 0 ∧ x = .divideByZero rb

/-- The re-read of PUSH and POP past the last cell, or a bad register byte read there (R101, R102). -/
def raisesReread (s : State) (x : Exc) : Prop :=
  memRead s (s.pc.toNat + 1) = .error x ∨ ∃ sel, memRead s (s.pc.toNat + 1) = .ok sel ∧ raisesReg sel x

/-- What an instruction raises. -/
def raises (i : Instr) (s : State) (x : Exc) : Prop :=
  match i with
  | .nop | .hlt | .ret => False
  | .push _ | .pop _ => raisesReread s x
  | .prn a | .call a | .jmp a | .jeq a | .jne a | .inc a | .dec a | .not a | .ldi a _ => raisesReg a x
  | .add a b | .sub a b | .mul a b | .and a b | .or a b | .xor a b | .shl a b | .shr a b | .cmp a b =>
    raisesReg₂ a b x
  | .div a b | .mod a b => raisesDivide a b s x

theorem regIdx_error_iff {b : Byte} {x : Exc} : regIdx b = .error x ↔ raisesReg b x := regIdx_error

/-- Failure of the two index checks in their order. -/
theorem regIdx₂_error {α : Type} {a b : Byte} {x : Exc} {f : RegIdx → RegIdx → α} :
    (do let ra ← regIdx a; let rb ← regIdx b; Except.ok (f ra rb) : Except Exc α) = .error x ↔ raisesReg₂ a b x := by
  simp only [except_bind_eq_error, regIdx_error_iff, raisesReg₂, reduceCtorEq, and_false, exists_false, or_false]
  refine or_congr_right ⟨fun ⟨r, h, e⟩ => ⟨?_, e⟩, fun ⟨h, e⟩ => ⟨⟨a.toNat, by omega⟩, regIdx_of_eq rfl, e⟩⟩
  have := regIdx_ok.mp h
  omega

theorem regIdx₂_ok {α : Type} {a b : Byte} {t : α} {f : RegIdx → RegIdx → α} :
    (do let ra ← regIdx a; let rb ← regIdx b; Except.ok (f ra rb) : Except Exc α) = .ok t ↔
      ∃ ra rb : RegIdx, a.toNat = ra.val ∧ b.toNat = rb.val ∧ t = f ra rb := by
  simp only [except_bind_eq_ok, regIdx_ok, Except.ok.injEq]
  constructor
  · rintro ⟨ra, ha, rb, hb, rfl⟩; exact ⟨ra, rb, ha, hb, rfl⟩
  · rintro ⟨ra, rb, ha, hb, rfl⟩; exact ⟨ra, ha, rb, hb, rfl⟩

theorem finish_iff {s t : State} {op : Byte} {r : Except Exc State} {P : Prop} {Q : Exc → Prop}
    (hok : r = .ok t ↔ P) (herr : ∀ x, r = .error x ↔ Q x) :
    finish s op r = .next t ↔ P ∨ ∃ x, Q x ∧ t = takeFault s op x := by
  simp only [finish_next, hok, herr]

theorem aluBinary_iff {op a b : Byte} {f : Byte → Byte → Byte} {s t : State} :
    aluBinary op f a b s = .next t ↔
      binaryEffect f a b s t ∨ ∃ x, raisesReg₂ a b x ∧ t = takeFault s op x :=
  finish_iff regIdx₂_ok fun _ => regIdx₂_error

theorem aluUnary_iff {op a : Byte} {f : Byte → Byte} {s t : State} :
    aluUnary op f a s = .next t ↔ unaryEffect f a s t ∨ ∃ x, raisesReg a x ∧ t = takeFault s op x := by
  refine finish_iff ?_ fun x => ?_
  · simp only [except_bind_eq_ok, regIdx_ok, Except.ok.injEq, unaryEffect, eq_comm (a := t)]
  · simp [except_bind_eq_error, regIdx_error_iff]

theorem aluDivide_iff {op a b : Byte} {f : Byte → Byte → Byte} {s t : State} :
    aluDivide op f a b s = .next t ↔
      divideEffect f a b s t ∨ ∃ x, raisesDivide a b s x ∧ t = takeFault s op x := by
  refine finish_iff ?_ fun x => ?_
  · simp only [except_bind_eq_ok, regIdx_ok, divideEffect]
    constructor
    · rintro ⟨ra, ha, rb, hb, h⟩
      split at h
      · cases h
      next hz => cases h; exact ⟨ra, rb, ha, hb, hz, rfl⟩
    · rintro ⟨ra, rb, ha, hb, hz, rfl⟩
      exact ⟨ra, ha, rb, hb, if_neg hz⟩
  · simp only [except_bind_eq_error, regIdx_error_iff, regIdx_ok, raisesDivide, raisesReg₂]
    constructor
    · rintro (h | ⟨ra, ha, h | ⟨rb, hb, h⟩⟩)
      · exact .inl (.inl h)
      · exact .inl (.inr ⟨by omega, h⟩)
      · split at h
        next hz => cases h; exact .inr ⟨ra, rb, ha, hb, hz, rfl⟩
        · cases h
    · rintro ((h | ⟨ha, h⟩) | ⟨ra, rb, ha, hb, hz, rfl⟩)
      · exact .inl h
      · exact .inr ⟨⟨a.toNat, by omega⟩, rfl, .inl h⟩
      · exact .inr ⟨ra, ha, .inr ⟨rb, hb, if_pos hz⟩⟩

/-- The one inversion lemma of `exec`. -/
theorem exec_next_iff {i : Instr} {s t : State} :
    exec i s = .next t ↔ effect i s t ∨ ∃ x, raises i s x ∧ t = takeFault s (opcodeOf i) x := by
  cases i with
  | nop => simp [exec, execNop, effect, raises, eq_comm]
  | hlt => simp [exec, execHlt, effect, raises, eq_comm]
  | ret =>
    refine finish_iff ?_ fun x => ?_
    · simp only [State.sp_eq, memRead_byte, except_bind_ok, effect, Except.ok.injEq]
      exact eq_comm
    · simp only [State.sp_eq, memRead_byte, except_bind_ok, raises, reduceCtorEq]
  | push r =>
    refine finish_iff ?_ fun x => ?_
    · simp only [except_bind_eq_ok, regIdx_ok, effect, memWrite_byte, Except.ok.injEq]
      constructor
      · rintro ⟨sel, h, r, hr, _, rfl, rfl⟩; exact ⟨sel, r, h, hr, rfl⟩
      · rintro ⟨sel, r, h, hr, rfl⟩; exact ⟨sel, h, r, hr, _, rfl, rfl⟩
    · simp only [except_bind_eq_error, regIdx_error_iff, memWrite_byte, raises, raisesReread, reduceCtorEq, and_false,
        exists_false, or_false]
  | pop r =>
    refine finish_iff ?_ fun x => ?_
    · simp only [except_bind_eq_ok, regIdx_ok, effect, memRead_byte, Except.ok.injEq]
      constructor
      · rintro ⟨sel, h, r, hr, _, rfl, rfl⟩; exact ⟨sel, r, h, hr, rfl⟩
      · rintro ⟨sel, r, h, hr, rfl⟩; exact ⟨sel, h, r, hr, _, rfl, rfl⟩
    · simp [except_bind_eq_error, regIdx_error_iff, raises, raisesReread]
  | call r =>
    refine finish_iff ?_ fun x => ?_
    · simp only [except_bind_eq_ok, regIdx_ok, effect, memWrite_byte, Except.ok.injEq]
      constructor
      · rintro ⟨r, hr, _, rfl, rfl⟩; exact ⟨r, hr, rfl⟩
      · rintro ⟨r, hr, rfl⟩; exact ⟨r, hr, _, rfl, rfl⟩
    · simp only [except_bind_eq_error, regIdx_error_iff, memWrite_byte, raises, reduceCtorEq, and_false, exists_false,
        or_false]
  | prn r | jmp r | ldi r _ | jeq r | jne r =>
    refine finish_iff ?_ fun x => ?_
    · simp only [except_bind_eq_ok, regIdx_ok, effect, Except.ok.injEq, eq_comm (a := t)]
    · simp [except_bind_eq_error, regIdx_error_iff, raises]
  | cmp a b => exact finish_iff regIdx₂_ok fun _ => regIdx₂_error
  | inc a | dec a | not a => exact aluUnary_iff
  | div a b | mod a b => exact aluDivide_iff
  | add a b | sub a b | mul a b | and a b | or a b | xor a b | shl a b | shr a b => exact aluBinary_iff

/-- Every instruction answers a next state: a handler never stops. -/
theorem exec_total (i : Instr) (s : State) : ∃ t, exec i s = .next t := by
  have hf (op : Byte) (r : Except Exc State) : ∃ t, finish s op r = .next t := by cases r <;> simp
  cases i
  case nop => exact ⟨_, rfl⟩
  case hlt => exact ⟨_, rfl⟩
  all_goals exact hf _ _

end Sys2Proof.Laws
end

