-- ==== Sys2Proof/Laws/Memory.lean ====
section
/-! SUPPORT. Memory: read after write, and that every memory operation keeps the canonical form. -/

namespace Sys2Proof.Machine.Memory

theorem wfFrom_cons {lo k : Nat} {v : Byte} {m : Memory} :
    wfFrom lo ((k, v) :: m) = true ↔ lo ≤ k ∧ k < Config.memSize ∧ v ≠ 0 ∧ wfFrom (k + 1) m = true := by
  simp [wfFrom, and_assoc]

theorem wfFrom_mono {lo lo' : Nat} {m : Memory} (h : wfFrom lo m = true) (hl : lo' ≤ lo) : wfFrom lo' m = true := by
  cases m with
  | nil => rfl
  | cons c m =>
    obtain ⟨k, v⟩ := c
    rw [wfFrom_cons] at h ⊢
    exact ⟨by omega, h.2⟩

/-- Below the first address that may be listed, every cell reads as 0. -/
theorem read_of_lt {lo a : Nat} {m : Memory} (h : wfFrom lo m = true) (ha : a < lo) : read m a = 0 := by
  induction m generalizing lo with
  | nil => rfl
  | cons c m ih =>
    obtain ⟨k, v⟩ := c
    rw [wfFrom_cons] at h
    have hk : k ≠ a := by omega
    simp [read, hk, ih h.2.2.2 (by omega)]

theorem read_consCell_of_ne {a b : Nat} (v : Byte) (m : Memory) (h : b ≠ a) : read (consCell a v m) b = read m b := by
  unfold consCell
  split
  · rfl
  · simp [read, h.symm]

/-- A write leaves every other cell alone, in any list. -/
theorem read_write_of_ne (m : Memory) {a b : Nat} (v : Byte) (h : b ≠ a) : read (write m a v) b = read m b := by
  induction m with
  | nil => exact read_consCell_of_ne v [] h
  | cons c m ih =>
    obtain ⟨k, w⟩ := c
    unfold write
    split
    · exact read_consCell_of_ne v _ h
    · split
      next hk => subst hk; rw [read_consCell_of_ne v m h]; simp [read, h.symm]
      next => simp [read, ih]

theorem read_consCell_same {a : Nat} (v : Byte) {m : Memory} (h : wfFrom (a + 1) m = true) :
    read (consCell a v m) a = v := by
  unfold consCell
  split
  next hv => rw [hv, read_of_lt h (by omega)]
  next => simp [read]

theorem read_write_same_from {lo a : Nat} {m : Memory} (v : Byte) (h : wfFrom lo m = true) :
    read (write m a v) a = v := by
  induction m generalizing lo with
  | nil => exact read_consCell_same v rfl
  | cons c m ih =>
    obtain ⟨k, w⟩ := c
    have h' := wfFrom_cons.mp h
    unfold write
    split
    next hk => exact read_consCell_same v (wfFrom_cons.mpr ⟨by omega, h'.2⟩)
    next =>
      split
      next hk => subst hk; exact read_consCell_same v h'.2.2.2
      next hk => simp [read, Ne.symm hk, ih h'.2.2.2]

/-- A read of the cell just written gives the byte written. -/
theorem read_write_same {m : Memory} (h : m.wf = true) (a : Nat) (v : Byte) : read (write m a v) a = v :=
  read_write_same_from v h

theorem consCell_wfFrom {lo a : Nat} (v : Byte) {m : Memory} (h : wfFrom (a + 1) m = true) (hl : lo ≤ a)
    (ha : a < Config.memSize) : wfFrom lo (consCell a v m) = true := by
  unfold consCell
  split
  · exact wfFrom_mono h (by omega)
  next hv => exact wfFrom_cons.mpr ⟨hl, ha, hv, h⟩

theorem write_wfFrom {lo a : Nat} {m : Memory} (v : Byte) (h : wfFrom lo m = true) (hl : lo ≤ a)
    (ha : a < Config.memSize) : wfFrom lo (write m a v) = true := by
  induction m generalizing lo with
  | nil => exact consCell_wfFrom v rfl hl ha
  | cons c m ih =>
    obtain ⟨k, w⟩ := c
    have h' := wfFrom_cons.mp h
    unfold write
    split
    next hk => exact consCell_wfFrom v (wfFrom_cons.mpr ⟨by omega, h'.2⟩) hl ha
    next =>
      split
      next hk => subst hk; exact consCell_wfFrom v h'.2.2.2 hl ha
      next hk => exact wfFrom_cons.mpr ⟨h'.1, h'.2.1, h'.2.2.1, ih h'.2.2.2 (by omega)⟩

/-- A write to a cell that exists keeps the canonical form. -/
theorem write_wf {m : Memory} (h : m.wf = true) {a : Nat} (v : Byte) (ha : a < Config.memSize) :
    (m.write a v).wf = true :=
  write_wfFrom v h (Nat.zero_le a) ha

/-- Loading bytes into cells that exist keeps the canonical form. -/
theorem loadFrom_wf {m : Memory} (h : m.wf = true) {a : Nat} {bs : List Byte} (ha : a + bs.length ≤ Config.memSize) :
    (m.loadFrom a bs).wf = true := by
  induction bs generalizing m a with
  | nil => exact h
  | cons b bs ih =>
    simp only [List.length_cons] at ha
    exact ih (write_wf h b (by omega)) (by omega)

end Sys2Proof.Machine.Memory
end

