-- ==== Sys2Proof/Laws/PerInstr.lean ====
section
/-! SUPPORT. Facts about every instruction as syntax, one lemma per constructor of Instr. -/

/-- An instruction's opcode byte dispatches to its own table entry (R50, R63). -/
def Sys2Proof.Laws.Dispatches.Statement (i : Sys2Proof.Instr) : Prop :=
  Sys2Proof.dispatch (Sys2Proof.opcodeOf i) = some (Sys2Proof.mnemonicOf i)

theorem Sys2Proof.Laws.Dispatches.nop : Sys2Proof.Laws.Dispatches.Statement .nop := Sys2Proof.dispatch_opc _
theorem Sys2Proof.Laws.Dispatches.hlt : Sys2Proof.Laws.Dispatches.Statement .hlt := Sys2Proof.dispatch_opc _
theorem Sys2Proof.Laws.Dispatches.ret : Sys2Proof.Laws.Dispatches.Statement .ret := Sys2Proof.dispatch_opc _
theorem Sys2Proof.Laws.Dispatches.push (r : Sys2Proof.Byte) : Sys2Proof.Laws.Dispatches.Statement (.push r) := Sys2Proof.dispatch_opc _
theorem Sys2Proof.Laws.Dispatches.pop (r : Sys2Proof.Byte) : Sys2Proof.Laws.Dispatches.Statement (.pop r) := Sys2Proof.dispatch_opc _
theorem Sys2Proof.Laws.Dispatches.prn (r : Sys2Proof.Byte) : Sys2Proof.Laws.Dispatches.Statement (.prn r) := Sys2Proof.dispatch_opc _
theorem Sys2Proof.Laws.Dispatches.call (r : Sys2Proof.Byte) : Sys2Proof.Laws.Dispatches.Statement (.call r) := Sys2Proof.dispatch_opc _
theorem Sys2Proof.Laws.Dispatches.jmp (r : Sys2Proof.Byte) : Sys2Proof.Laws.Dispatches.Statement (.jmp r) := Sys2Proof.dispatch_opc _
theorem Sys2Proof.Laws.Dispatches.jeq (r : Sys2Proof.Byte) : Sys2Proof.Laws.Dispatches.Statement (.jeq r) := Sys2Proof.dispatch_opc _
theorem Sys2Proof.Laws.Dispatches.jne (r : Sys2Proof.Byte) : Sys2Proof.Laws.Dispatches.Statement (.jne r) := Sys2Proof.dispatch_opc _
theorem Sys2Proof.Laws.Dispatches.inc (r : Sys2Proof.Byte) : Sys2Proof.Laws.Dispatches.Statement (.inc r) := Sys2Proof.dispatch_opc _
theorem Sys2Proof.Laws.Dispatches.dec (r : Sys2Proof.Byte) : Sys2Proof.Laws.Dispatches.Statement (.dec r) := Sys2Proof.dispatch_opc _
theorem Sys2Proof.Laws.Dispatches.not (r : Sys2Proof.Byte) : Sys2Proof.Laws.Dispatches.Statement (.not r) := Sys2Proof.dispatch_opc _
theorem Sys2Proof.Laws.Dispatches.ldi (r imm : Sys2Proof.Byte) : Sys2Proof.Laws.Dispatches.Statement (.ldi r imm) := Sys2Proof.dispatch_opc _
theorem Sys2Proof.Laws.Dispatches.add (a b : Sys2Proof.Byte) : Sys2Proof.Laws.Dispatches.Statement (.add a b) := Sys2Proof.dispatch_opc _
theorem Sys2Proof.Laws.Dispatches.sub (a b : Sys2Proof.Byte) : Sys2Proof.Laws.Dispatches.Statement (.sub a b) := Sys2Proof.dispatch_opc _
theorem Sys2Proof.Laws.Dispatches.mul (a b : Sys2Proof.Byte) : Sys2Proof.Laws.Dispatches.Statement (.mul a b) := Sys2Proof.dispatch_opc _
theorem Sys2Proof.Laws.Dispatches.div (a b : Sys2Proof.Byte) : Sys2Proof.Laws.Dispatches.Statement (.div a b) := Sys2Proof.dispatch_opc _
theorem Sys2Proof.Laws.Dispatches.mod (a b : Sys2Proof.Byte) : Sys2Proof.Laws.Dispatches.Statement (.mod a b) := Sys2Proof.dispatch_opc _
theorem Sys2Proof.Laws.Dispatches.cmp (a b : Sys2Proof.Byte) : Sys2Proof.Laws.Dispatches.Statement (.cmp a b) := Sys2Proof.dispatch_opc _
theorem Sys2Proof.Laws.Dispatches.and (a b : Sys2Proof.Byte) : Sys2Proof.Laws.Dispatches.Statement (.and a b) := Sys2Proof.dispatch_opc _
theorem Sys2Proof.Laws.Dispatches.or (a b : Sys2Proof.Byte) : Sys2Proof.Laws.Dispatches.Statement (.or a b) := Sys2Proof.dispatch_opc _
theorem Sys2Proof.Laws.Dispatches.xor (a b : Sys2Proof.Byte) : Sys2Proof.Laws.Dispatches.Statement (.xor a b) := Sys2Proof.dispatch_opc _
theorem Sys2Proof.Laws.Dispatches.shl (a b : Sys2Proof.Byte) : Sys2Proof.Laws.Dispatches.Statement (.shl a b) := Sys2Proof.dispatch_opc _
theorem Sys2Proof.Laws.Dispatches.shr (a b : Sys2Proof.Byte) : Sys2Proof.Laws.Dispatches.Statement (.shr a b) := Sys2Proof.dispatch_opc _

/-- An instruction occupies the number of bytes of its format (R47). -/
def Sys2Proof.Laws.EncodedLength.Statement (i : Sys2Proof.Instr) : Prop :=
  (Sys2Proof.encode i).length = (Sys2Proof.mnemonicOf i).format.length

theorem Sys2Proof.Laws.EncodedLength.nop : Sys2Proof.Laws.EncodedLength.Statement .nop := rfl
theorem Sys2Proof.Laws.EncodedLength.hlt : Sys2Proof.Laws.EncodedLength.Statement .hlt := rfl
theorem Sys2Proof.Laws.EncodedLength.ret : Sys2Proof.Laws.EncodedLength.Statement .ret := rfl
theorem Sys2Proof.Laws.EncodedLength.push (r : Sys2Proof.Byte) : Sys2Proof.Laws.EncodedLength.Statement (.push r) := rfl
theorem Sys2Proof.Laws.EncodedLength.pop (r : Sys2Proof.Byte) : Sys2Proof.Laws.EncodedLength.Statement (.pop r) := rfl
theorem Sys2Proof.Laws.EncodedLength.prn (r : Sys2Proof.Byte) : Sys2Proof.Laws.EncodedLength.Statement (.prn r) := rfl
theorem Sys2Proof.Laws.EncodedLength.call (r : Sys2Proof.Byte) : Sys2Proof.Laws.EncodedLength.Statement (.call r) := rfl
theorem Sys2Proof.Laws.EncodedLength.jmp (r : Sys2Proof.Byte) : Sys2Proof.Laws.EncodedLength.Statement (.jmp r) := rfl
theorem Sys2Proof.Laws.EncodedLength.jeq (r : Sys2Proof.Byte) : Sys2Proof.Laws.EncodedLength.Statement (.jeq r) := rfl
theorem Sys2Proof.Laws.EncodedLength.jne (r : Sys2Proof.Byte) : Sys2Proof.Laws.EncodedLength.Statement (.jne r) := rfl
theorem Sys2Proof.Laws.EncodedLength.inc (r : Sys2Proof.Byte) : Sys2Proof.Laws.EncodedLength.Statement (.inc r) := rfl
theorem Sys2Proof.Laws.EncodedLength.dec (r : Sys2Proof.Byte) : Sys2Proof.Laws.EncodedLength.Statement (.dec r) := rfl
theorem Sys2Proof.Laws.EncodedLength.not (r : Sys2Proof.Byte) : Sys2Proof.Laws.EncodedLength.Statement (.not r) := rfl
theorem Sys2Proof.Laws.EncodedLength.ldi (r imm : Sys2Proof.Byte) : Sys2Proof.Laws.EncodedLength.Statement (.ldi r imm) := rfl
theorem Sys2Proof.Laws.EncodedLength.add (a b : Sys2Proof.Byte) : Sys2Proof.Laws.EncodedLength.Statement (.add a b) := rfl
theorem Sys2Proof.Laws.EncodedLength.sub (a b : Sys2Proof.Byte) : Sys2Proof.Laws.EncodedLength.Statement (.sub a b) := rfl
theorem Sys2Proof.Laws.EncodedLength.mul (a b : Sys2Proof.Byte) : Sys2Proof.Laws.EncodedLength.Statement (.mul a b) := rfl
theorem Sys2Proof.Laws.EncodedLength.div (a b : Sys2Proof.Byte) : Sys2Proof.Laws.EncodedLength.Statement (.div a b) := rfl
theorem Sys2Proof.Laws.EncodedLength.mod (a b : Sys2Proof.Byte) : Sys2Proof.Laws.EncodedLength.Statement (.mod a b) := rfl
theorem Sys2Proof.Laws.EncodedLength.cmp (a b : Sys2Proof.Byte) : Sys2Proof.Laws.EncodedLength.Statement (.cmp a b) := rfl
theorem Sys2Proof.Laws.EncodedLength.and (a b : Sys2Proof.Byte) : Sys2Proof.Laws.EncodedLength.Statement (.and a b) := rfl
theorem Sys2Proof.Laws.EncodedLength.or (a b : Sys2Proof.Byte) : Sys2Proof.Laws.EncodedLength.Statement (.or a b) := rfl
theorem Sys2Proof.Laws.EncodedLength.xor (a b : Sys2Proof.Byte) : Sys2Proof.Laws.EncodedLength.Statement (.xor a b) := rfl
theorem Sys2Proof.Laws.EncodedLength.shl (a b : Sys2Proof.Byte) : Sys2Proof.Laws.EncodedLength.Statement (.shl a b) := rfl
theorem Sys2Proof.Laws.EncodedLength.shr (a b : Sys2Proof.Byte) : Sys2Proof.Laws.EncodedLength.Statement (.shr a b) := rfl
end

