-- ==== Sys2Proof/Laws/Step.lean ====
section
/-! SUPPORT. What a step can do, said once. -/

namespace Sys2Proof.Machine

theorem runEnded_none {s : State} : runEnded s = none ↔ s.canCycle := by
  unfold runEnded State.canCycle
  cases s.fault <;> cases s.running <;> simp

theorem step_of_canCycle {s : State} (h : s.canCycle) : step s = cycle s := by
  simp [step, runEnded_none.mpr h]

theorem step_next {s t : State} : step s = .next t ↔ s.canCycle ∧ cycle s = .next t := by
  refine ⟨fun h => ?_, fun ⟨h, e⟩ => step_of_canCycle h ▸ e⟩
  unfold step at h
  split at h
  · cases h
  next hr => exact ⟨runEnded_none.mp hr, h⟩

/-- The three bytes of a cycle whose `pc` leaves room for them. -/
theorem fetch_of_le {s : State} (h : s.pc.toNat ≤ 253) :
    fetch s = .ok ⟨s.mem.read s.pc.toNat, s.mem.read (s.pc.toNat + 1), s.mem.read (s.pc.toNat + 2)⟩ := by
  simp [fetch, memRead_of_lt s (show s.pc.toNat < 256 by omega),
    memRead_of_lt s (show s.pc.toNat + 1 < 256 by omega), memRead_of_lt s (show s.pc.toNat + 2 < 256 by omega)]

/-- All that a fetch can answer. -/
theorem fetch_cases (s : State) :
    (s.pc.toNat ≤ 253 ∧
      fetch s = .ok ⟨s.mem.read s.pc.toNat, s.mem.read (s.pc.toNat + 1), s.mem.read (s.pc.toNat + 2)⟩) ∨
    (s.pc.toNat = 254 ∧ fetch s = .error (.memOutOfBounds 256, s.mem.read 254)) ∨
    (s.pc.toNat = 255 ∧ fetch s = .error (.memOutOfBounds 256, s.mem.read 255)) ∨
    (256 ≤ s.pc.toNat ∧ fetch s = .error (.memOutOfBounds s.pc.toNat, 0)) := by
  by_cases h : s.pc.toNat ≤ 253
  · exact .inl ⟨h, fetch_of_le h⟩
  by_cases h4 : s.pc.toNat = 254
  · refine .inr (.inl ⟨h4, ?_⟩)
    simp [fetch, h4, memRead_of_lt s (show 254 < 256 by omega), memRead_of_lt s (show 255 < 256 by omega),
      memRead_of_ge s (show 256 ≤ 256 by omega)]
  by_cases h5 : s.pc.toNat = 255
  · refine .inr (.inr (.inl ⟨h5, ?_⟩))
    simp [fetch, h5, memRead_of_lt s (show 255 < 256 by omega), memRead_of_ge s (show 256 ≤ 256 by omega)]
  · have h6 : 256 ≤ s.pc.toNat := by omega
    exact .inr (.inr (.inr ⟨h6, by simp [fetch, memRead_of_ge s h6]⟩))

theorem fetch_ok {s : State} {t : Triplet} (h : fetch s = .ok t) :
    s.pc.toNat ≤ 253 ∧ t = ⟨s.mem.read s.pc.toNat, s.mem.read (s.pc.toNat + 1), s.mem.read (s.pc.toNat + 2)⟩ := by
  rcases fetch_cases s with ⟨hp, e⟩ | ⟨_, e⟩ | ⟨_, e⟩ | ⟨_, e⟩ <;> rw [e] at h <;> cases h
  exact ⟨hp, rfl⟩

/-- All that a step which answers a next state can have done: run the decoded instruction, or take the fault of its
fetch, or take the fault of an unknown opcode. -/
theorem step_cases {s t : State} (h : step s = .next t) :
    s.canCycle ∧
      ((∃ i, s.runs i ∧ exec i s = .next t) ∨
       (∃ x op, fetch s = .error (x, op) ∧ t = takeFault s op x) ∨
       (s.pc.toNat ≤ 253 ∧ dispatch (s.mem.read s.pc.toNat) = none ∧
         t = takeFault s (s.mem.read s.pc.toNat) (.unknownOpcode (s.mem.read s.pc.toNat)))) := by
  obtain ⟨hc, h⟩ := step_next.mp h
  refine ⟨hc, ?_⟩
  unfold cycle at h
  cases hf : fetch s with
  | error e =>
    obtain ⟨x, op⟩ := e
    simp only [hf] at h
    cases h
    exact .inr (.inl ⟨x, op, rfl, rfl⟩)
  | ok tr =>
    simp only [hf, dispatchAndExecute] at h
    cases hd : decodeTriplet tr.ir tr.opa tr.opb with
    | ok i =>
      simp only [hd] at h
      exact .inl ⟨i, ⟨hc, tr, hf, hd⟩, h⟩
    | error x =>
      simp only [hd] at h
      cases h
      obtain ⟨hp, rfl⟩ := fetch_ok hf
      exact .inr (.inr ⟨hp, (decodeTriplet_error.mp hd).1, rfl⟩)

end Sys2Proof.Machine
end

