-- ==== Sys2Proof/Tests/Slice0.lean ====
section
/-! SUPPORT. The model's own tests: decoding of words written out from R50, the well-formedness smoke test, one step from
vectors of spec/95_test_vectors.md (the vector's name stands in each comment), and for every statement with hypotheses a
witness that meets them. -/

namespace Sys2Proof.Tests

open Sys2Proof.Machine Sys2Proof.Claims

/-! ## Helpers -/

/-- The launch state of the vectors: reset, the bytes loaded from address 0, some registers set. -/
def start (bytes : List Byte) (sets : List (RegIdx × Byte)) : State :=
  sets.foldl (fun s p => s.setReg p.1 p.2) { State.reset with mem := State.reset.mem.loadFrom 0 bytes }

/-- The same at another `pc`, the bytes loaded there. -/
def startAt (pc : Nat) (bytes : List Byte) (sets : List (RegIdx × Byte)) : State :=
  sets.foldl (fun s p => s.setReg p.1 p.2)
    { State.reset with mem := State.reset.mem.loadFrom pc bytes, pc := BitVec.ofNat 9 pc }

/-- The next state, if there is one. -/
def next? (o : Host.Outcome State Fault Refusal) : Option State :=
  match o with
  | .next s => some s
  | .fault _ => none
  | .refused _ => none

/-- One step, then a view of the state. -/
def after {α : Type} (s : State) (view : State → α) : Option α := (next? (step s)).map view

/-! ## Decoding: each opcode of R50 written out in binary, with operand bytes (R57) -/

theorem test_decode_nop : decode [0b00000000, 0b11111111] = .ok (.nop, [0b11111111]) := rfl
theorem test_decode_hlt : decode [0b00000001, 0b11111111] = .ok (.hlt, [0b11111111]) := rfl
theorem test_decode_ret : decode [0b00010001, 0b11111111] = .ok (.ret, [0b11111111]) := rfl
theorem test_decode_push : decode [0b01000101, 0b00000101, 0b11111111] = .ok (.push 0b00000101, [0b11111111]) := rfl
theorem test_decode_pop : decode [0b01000110, 0b00000101, 0b11111111] = .ok (.pop 0b00000101, [0b11111111]) := rfl
theorem test_decode_prn : decode [0b01000111, 0b00000101, 0b11111111] = .ok (.prn 0b00000101, [0b11111111]) := rfl
theorem test_decode_call : decode [0b01010000, 0b00000101, 0b11111111] = .ok (.call 0b00000101, [0b11111111]) := rfl
theorem test_decode_jmp : decode [0b01010100, 0b00000101, 0b11111111] = .ok (.jmp 0b00000101, [0b11111111]) := rfl
theorem test_decode_jeq : decode [0b01010101, 0b00000101, 0b11111111] = .ok (.jeq 0b00000101, [0b11111111]) := rfl
theorem test_decode_jne : decode [0b01010110, 0b00000101, 0b11111111] = .ok (.jne 0b00000101, [0b11111111]) := rfl
theorem test_decode_inc : decode [0b01100101, 0b00000101, 0b11111111] = .ok (.inc 0b00000101, [0b11111111]) := rfl
theorem test_decode_dec : decode [0b01100110, 0b00000101, 0b11111111] = .ok (.dec 0b00000101, [0b11111111]) := rfl
theorem test_decode_not : decode [0b01101001, 0b00000101, 0b11111111] = .ok (.not 0b00000101, [0b11111111]) := rfl
theorem test_decode_ldi : decode [0b10000010, 0b00000101, 0b11000010, 0b11111111] = .ok (.ldi 0b00000101 0b11000010, [0b11111111]) := rfl
theorem test_decode_add : decode [0b10100000, 0b00000101, 0b11000010, 0b11111111] = .ok (.add 0b00000101 0b11000010, [0b11111111]) := rfl
theorem test_decode_sub : decode [0b10100001, 0b00000101, 0b11000010, 0b11111111] = .ok (.sub 0b00000101 0b11000010, [0b11111111]) := rfl
theorem test_decode_mul : decode [0b10100010, 0b00000101, 0b11000010, 0b11111111] = .ok (.mul 0b00000101 0b11000010, [0b11111111]) := rfl
theorem test_decode_div : decode [0b10100011, 0b00000101, 0b11000010, 0b11111111] = .ok (.div 0b00000101 0b11000010, [0b11111111]) := rfl
theorem test_decode_mod : decode [0b10100100, 0b00000101, 0b11000010, 0b11111111] = .ok (.mod 0b00000101 0b11000010, [0b11111111]) := rfl
theorem test_decode_cmp : decode [0b10100111, 0b00000101, 0b11000010, 0b11111111] = .ok (.cmp 0b00000101 0b11000010, [0b11111111]) := rfl
theorem test_decode_and : decode [0b10101000, 0b00000101, 0b11000010, 0b11111111] = .ok (.and 0b00000101 0b11000010, [0b11111111]) := rfl
theorem test_decode_or : decode [0b10101010, 0b00000101, 0b11000010, 0b11111111] = .ok (.or 0b00000101 0b11000010, [0b11111111]) := rfl
theorem test_decode_xor : decode [0b10101011, 0b00000101, 0b11000010, 0b11111111] = .ok (.xor 0b00000101 0b11000010, [0b11111111]) := rfl
theorem test_decode_shl : decode [0b10101100, 0b00000101, 0b11000010, 0b11111111] = .ok (.shl 0b00000101 0b11000010, [0b11111111]) := rfl
theorem test_decode_shr : decode [0b10101101, 0b00000101, 0b11000010, 0b11111111] = .ok (.shr 0b00000101 0b11000010, [0b11111111]) := rfl

/-- LS-8 opcodes that this machine does not have (R51), and a list that ends too early. -/
theorem test_decode_rejects :
    decode [0x83, 0, 0] = .error (.unknownOpcode 0x83) ∧ decode [0x13] = .error (.unknownOpcode 0x13) ∧
    decode [0x82, 0] = .error .truncated ∧ decode [] = .error .truncated := ⟨rfl, rfl, rfl, rfl⟩

/-- R57's example: LDI R0 8 is 0x82 0x00 0x08. -/
theorem test_encode_ldi : encode (.ldi 0 8) = [0x82, 0x00, 0x08] := rfl

/-- A table word: byte 0 is bits 7..0. -/
theorem test_decodeTableWord : decodeTableWord 24 0x0900A0 = some (.add 0 9) ∧ decodeTableWord 8 0x01 = some .hlt ∧
    decodeTableWord 16 0xFF0745 = some (.push 7) ∧ decodeTableWord 8 0xFF = none := by decide

/-- The placed word is what the next step runs. -/
theorem test_withFetchWord : after (State.reset.withFetchWord 24 0x080082) (fun s => (s.reg 0, s.pc)) = some (8, 3) := by
  decide

/-! ## Well-formedness: one ill-formed term for each check -/

theorem test_wellFormed_refuses_one_register :
    [Instr.push 8, .pop 8, .prn 8, .call 8, .jmp 9, .jeq 9, .jne 255, .inc 8, .dec 8, .not 128, .ldi 8 0].map
      Instr.wellFormed = List.replicate 11 false := by decide

theorem test_wellFormed_refuses_first_register :
    [Instr.add 8 0, .sub 8 0, .mul 8 0, .div 8 0, .mod 8 0, .cmp 8 0, .and 8 0, .or 8 0, .xor 8 0, .shl 8 0,
      .shr 255 0].map Instr.wellFormed = List.replicate 11 false := by decide

theorem test_wellFormed_refuses_second_register :
    [Instr.add 7 8, .sub 7 8, .mul 7 8, .div 7 8, .mod 7 8, .cmp 7 8, .and 7 8, .or 7 8, .xor 7 8, .shl 7 8,
      .shr 7 255].map Instr.wellFormed = List.replicate 11 false := by decide

theorem test_wellFormed_accepts :
    [Instr.nop, .hlt, .ret, .push 7, .ldi 7 255, .add 7 7, .cmp 0 7].map Instr.wellFormed = List.replicate 7 true := by
  decide

/-! ## One step, against the spec's vectors -/

/-- A1. -/
theorem test_add_wraps :
    after (start [0xA0, 0, 1] [(0, 200), (1, 100)]) (fun s => (s.reg 0, s.reg 1, s.pc)) =
      some (44, 100, 3) := by decide

/-- A3: the same register twice. -/
theorem test_add_same :
    after (start [0xA0, 0, 0] [(0, 0x81)]) (fun s => (s.reg 0, s.pc)) =
      some (0x02, 3) := by decide

/-- A4. -/
theorem test_sub_wraps :
    after (start [0xA1, 0, 1] [(0, 5), (1, 10)]) (fun s => (s.reg 0, s.reg 1, s.pc)) =
      some (251, 10, 3) := by decide

/-- A6. -/
theorem test_sub_same :
    after (start [0xA1, 2, 2] [(2, 77)]) (fun s => (s.reg 2, s.pc)) =
      some (0, 3) := by decide

/-- A9. -/
theorem test_mul_wraps :
    after (start [0xA2, 0, 1] [(0, 255), (1, 255)]) (fun s => (s.reg 0, s.reg 1, s.pc)) =
      some (1, 255, 3) := by decide

/-- A11. -/
theorem test_div_floor :
    after (start [0xA3, 0, 1] [(0, 7), (1, 2)]) (fun s => (s.reg 0, s.reg 1, s.pc)) =
      some (3, 2, 3) := by decide

/-- A15: the fault record, and nothing else changed. -/
theorem test_div_by_zero :
    after (start [0xA3, 0, 1] [(0, 5), (1, 0)]) (fun s => (s.fault, s.reg 0, s.pc, s.running)) =
      some (some ⟨.divideByZero, 0, 0xA3, .divisor 1⟩, 5, 0, true) := by decide

/-- A19. -/
theorem test_mod :
    after (start [0xA4, 0, 1] [(0, 255), (1, 16)]) (fun s => (s.reg 0, s.reg 1, s.pc)) =
      some (15, 16, 3) := by decide

/-- A22. -/
theorem test_mod_by_zero :
    after (start [0xA4, 0, 1] [(0, 5), (1, 0)]) (fun s => (s.fault, s.reg 0)) =
      some (some ⟨.divideByZero, 0, 0xA4, .divisor 1⟩, 5) := by decide

/-- A46: OutOfBounds outranks DivideByZero. -/
theorem test_div_bad_register_first :
    after (start [0xA3, 9, 1] [(1, 0)]) (fun s => s.fault) =
      some (some ⟨.outOfBounds, 0, 0xA3, .reg 9⟩) := by decide

/-- A23. -/
theorem test_and :
    after (start [0xA8, 0, 1] [(0, 0xCC), (1, 0xAA)]) (fun s => (s.reg 0, s.reg 1, s.pc)) =
      some (0x88, 0xAA, 3) := by decide

/-- A24. -/
theorem test_or :
    after (start [0xAA, 0, 1] [(0, 0xCC), (1, 0xAA)]) (fun s => (s.reg 0, s.reg 1, s.pc)) =
      some (0xEE, 0xAA, 3) := by decide

/-- A25. -/
theorem test_xor :
    after (start [0xAB, 0, 1] [(0, 0xCC), (1, 0xAA)]) (fun s => (s.reg 0, s.reg 1, s.pc)) =
      some (0x66, 0xAA, 3) := by decide

/-- A27: bit 7 is lost. -/
theorem test_shl :
    after (start [0xAC, 0, 1] [(0, 0x81), (1, 1)]) (fun s => (s.reg 0, s.reg 1, s.pc)) =
      some (0x02, 1, 3) := by decide

/-- A30: the largest count. -/
theorem test_shl_full_count :
    after (start [0xAC, 0, 1] [(0, 0xFF), (1, 255)]) (fun s => (s.reg 0, s.reg 1, s.pc)) =
      some (0, 255, 3) := by decide

/-- A33. -/
theorem test_shr_logical :
    after (start [0xAD, 0, 1] [(0, 0x81), (1, 1)]) (fun s => (s.reg 0, s.reg 1, s.pc)) =
      some (0x40, 1, 3) := by decide

/-- A35: count = width. -/
theorem test_shr_width :
    after (start [0xAD, 0, 1] [(0, 0xFF), (1, 8)]) (fun s => (s.reg 0, s.reg 1, s.pc)) =
      some (0, 8, 3) := by decide

/-- A39 and A43: unsigned, and the old flag cleared. -/
theorem test_cmp_less_unsigned :
    after ((start [0xA7, 0, 1] [(0, 3), (1, 200)]).setFlags ⟨false, false, true⟩) (fun s => (s.flags, s.reg 0, s.pc)) =
      some (⟨false, true, false⟩, 3, 3) := by decide

/-- A42. -/
theorem test_cmp_same :
    after (start [0xA7, 4, 4] [(4, 9)]) (fun s => (s.flags, s.pc)) =
      some (⟨true, false, false⟩, 3) := by decide

/-- A44. -/
theorem test_add_bad_second :
    after (start [0xA0, 0, 8] [(0, 1)]) (fun s => (s.fault, s.reg 0, s.pc)) =
      some (some ⟨.outOfBounds, 0, 0xA0, .reg 8⟩, 1, 0) := by decide

/-- A45: the first index is reported. -/
theorem test_add_bad_both :
    after (start [0xA0, 9, 8] []) (fun s => s.fault) =
      some (some ⟨.outOfBounds, 0, 0xA0, .reg 9⟩) := by decide

/-- A50. -/
theorem test_not_ignores_byte_two :
    after (start [0x69, 0, 1] [(0, 0x0F), (1, 0x33)]) (fun s => (s.reg 0, s.reg 1, s.pc)) =
      some (0xF0, 0x33, 2) := by decide

/-- A51. -/
theorem test_inc_wraps :
    after (start [0x65, 3] [(3, 255)]) (fun s => (s.reg 3, s.pc)) =
      some (0, 2) := by decide

/-- A53. -/
theorem test_dec_wraps :
    after (start [0x66, 3] [(3, 0)]) (fun s => (s.reg 3, s.pc)) =
      some (255, 2) := by decide

/-- M1. -/
theorem test_ldi :
    after (start [0x82, 0, 8] []) (fun s => (s.reg 0, s.pc)) =
      some (8, 3) := by decide

/-- E1: `pc` 253 goes to 256. -/
theorem test_ldi_last_address :
    after (startAt 253 [0x82, 0, 7] []) (fun s => (s.reg 0, s.pc)) =
      some (7, 256) := by decide

/-- M7. -/
theorem test_prn :
    after (start [0x47, 7] []) (fun s => (s.out, s.pc)) =
      some ([244], 2) := by decide

/-- M8. -/
theorem test_prn_bad_register :
    after (start [0x47, 9] []) (fun s => (s.fault, s.out)) =
      some (some ⟨.outOfBounds, 0, 0x47, .reg 9⟩, []) := by decide

/-- E10. -/
theorem test_hlt :
    after (start [0x01, 9, 9] []) (fun s => (s.running, s.pc, s.fault)) =
      some (false, 0, none) := by decide

/-- E9. -/
theorem test_nop :
    after (start [0x00, 0xFF, 0xFF] []) (fun s => (s.pc, s.fault)) =
      some (1, none) := by decide

/-- K2. -/
theorem test_push_wraps :
    after (start [0x45, 0] [(0, 0xAB), (7, 0)]) (fun s => (s.reg 7, s.mem.read 0xFF, s.pc)) =
      some (0xFF, 0xAB, 2) := by decide

/-- K3. -/
theorem test_push_r7 :
    after (start [0x45, 7] []) (fun s => (s.reg 7, s.mem.read 0xF3, s.pc)) =
      some (0xF3, 0xF3, 2) := by decide

/-- K6. -/
theorem test_pop_wraps :
    after (start [0x46, 0] [(0, 9), (7, 0xFF)]) (fun s => (s.reg 0, s.reg 7, s.pc)) =
      some (0, 0, 2) := by decide

/-- K7. -/
theorem test_pop_r7 :
    after (start [0x46, 7] [(7, 0x40)]) (fun s => (s.reg 7, s.pc)) =
      some (1, 2) := by decide

/-- T1. -/
theorem test_call :
    after (startAt 3 [0x50, 1] [(1, 20)]) (fun s => (s.reg 7, s.mem.read 0xF3, s.pc)) =
      some (0xF3, 5, 20) := by decide

/-- T2. -/
theorem test_call_r7 :
    after (start [0x50, 7] []) (fun s => (s.reg 7, s.mem.read 0xF3, s.pc)) =
      some (0xF3, 2, 0xF3) := by decide

/-- T5. -/
theorem test_ret :
    after ((startAt 23 [0x11] [(7, 0xF3)]).store 0xF3 5) (fun s => (s.reg 7, s.pc)) =
      some (0xF4, 5) := by decide

/-- T7. -/
theorem test_jmp :
    after (start [0x54, 2] [(2, 9)]) (fun s => s.pc) =
      some 9 := by decide

/-- T10. -/
theorem test_jeq_taken :
    after ((start [0x55, 2] [(2, 0x30)]).setFlags ⟨true, false, false⟩) (fun s => s.pc) =
      some 0x30 := by decide

/-- T16. -/
theorem test_jeq_bad_register_not_taken :
    after (start [0x55, 9] []) (fun s => s.fault) =
      some (some ⟨.outOfBounds, 0, 0x55, .reg 9⟩) := by decide

/-- T14. -/
theorem test_jne_not_taken :
    after ((start [0x56, 2] [(2, 0x30)]).setFlags ⟨true, false, false⟩) (fun s => s.pc) =
      some 2 := by decide

/-- T15: taken before any CMP. -/
theorem test_jne_before_cmp :
    after (start [0x56, 2] [(2, 0x30)]) (fun s => s.pc) =
      some 0x30 := by decide

/-- E2. -/
theorem test_fetch_256 :
    after (startAt 256 [] []) (fun s => (s.fault, s.pc)) =
      some (some ⟨.outOfBounds, 256, 0, .mem 256⟩, 256) := by decide

/-- E5. -/
theorem test_fetch_255 :
    after (startAt 255 [0x01] []) (fun s => (s.fault, s.running)) =
      some (some ⟨.outOfBounds, 255, 0x01, .mem 256⟩, true) := by decide

/-- E6. -/
theorem test_fetch_254_outranks_unknown :
    after (startAt 254 [0xFF] []) (fun s => s.fault) =
      some (some ⟨.outOfBounds, 254, 0xFF, .mem 256⟩) := by decide

/-- E8. -/
theorem test_unknown_opcode :
    after (start [0x83] []) (fun s => (s.fault, s.pc)) =
      some (some ⟨.unknownOpcode, 0, 0x83, .opcode 0x83⟩, 0) := by decide

/-- R43: the image, then zeros. -/
theorem test_launch : (next? (launch [0x82, 0, 8])).map (fun s => (s.mem.read 0, s.mem.read 2, s.mem.read 3, s.mem.wf)) =
    some (0x82, 8, 0, true) := by decide

/-! ## Witnesses: states and operands that meet the hypotheses of the statements -/

/-- Register operand bytes at both ends of each clause's range: 0 and 7 name registers, 8 and 255 do not. -/
theorem witness_register_bytes :
    (0 : Byte).toNat = (0 : RegIdx).val ∧ (7 : Byte).toNat = (7 : RegIdx).val ∧ 7 < (8 : Byte).toNat ∧
    7 < (255 : Byte).toNat ∧ ((7 : Byte).toNat ≤ 7 ∧ 7 < (8 : Byte).toNat) := by decide

theorem witness_divisor : (start [] [(1, 1)]).reg 1 ≠ 0 ∧ (start [] [(1, 0)]).reg 1 = 0 := by decide

theorem witness_DecodeOfEncodeIsTheInstruction : encode .nop ++ [9, 9] = [0x00, 9, 9] := rfl

theorem witness_DecodedBytesAreTheEncoding :
    decode [0x82, 0, 8, 1] = .ok (.ldi 0 8, [1]) ∧ ∀ i, opcodeOf i ≠ 0xFF :=
  ⟨rfl, fun i => by cases i <;> exact of_decide_eq_true rfl⟩

theorem witness_LaunchLoadsTheImage :
    (List.replicate 256 (0 : Byte)).length ≤ 256 ∧ 256 < (List.replicate 257 (0 : Byte)).length := by
  simp only [List.length_replicate]; decide

theorem witness_StepRunsTheDecodedInstruction :
    let s := startAt 253 [0x82, 7, 255] []
    s.running = true ∧ s.fault = none ∧ s.pc.toNat ≤ 253 ∧
      decodeTriplet (s.mem.read s.pc.toNat) (s.mem.read (s.pc.toNat + 1)) (s.mem.read (s.pc.toNat + 2)) =
        .ok (.ldi 7 255) :=
  ⟨rfl, rfl, by decide, rfl⟩

/-- Also for CycleHasOneOfThreeOutcomes and CycleTakesTheFirstFaultInPriorityOrder, whose hypothesis is `canCycle`. -/
theorem witness_FetchPastTheEndFaults :
    ((startAt 254 [] []).canCycle ∧ (startAt 254 [] []).pc.toNat = 254) ∧
    ((startAt 255 [] []).canCycle ∧ (startAt 255 [] []).pc.toNat = 255) ∧
    ((startAt 256 [] []).canCycle ∧ (startAt 256 [] []).pc.toNat = 256) := by decide

theorem witness_UnknownOpcodeIsFatal :
    let s := startAt 253 [0xFF] []
    s.canCycle ∧ s.pc.toNat ≤ 253 ∧ (∀ i, opcodeOf i ≠ s.mem.read s.pc.toNat) ∧
      ∃ t r, step s = .next t ∧ t.fault = some r ∧ r.kind = .unknownOpcode :=
  ⟨by decide, by decide, witness_DecodedBytesAreTheEncoding.2, _, _, rfl, rfl, rfl⟩

theorem witness_CycleStartsOnlyWhileRunning :
    (startAt 253 [0x01] []).runs .hlt ∧
      ∃ t r, step (start [0xFF] []) = .next t ∧ t.fault = some r :=
  ⟨⟨⟨rfl, rfl⟩, _, rfl, rfl⟩, _, _, rfl, rfl⟩

theorem witness_FaultEntryChangesOnlyTheLatch :
    ∃ t r, step (start [0xA3, 0, 1] [(0, 5)]) = .next t ∧ t.fault = some r := ⟨_, _, rfl, rfl⟩

theorem witness_RegisterBytesAboveSevenFault :
    ((start [0x55, 8] []).runs (.jeq 8) ∧ (Instr.jeq 8).wellFormed = false) ∧
    ((start [0xA0, 7, 8] []).runs (.add 7 8) ∧ (Instr.add 7 8).wellFormed = false) ∧
    ((start [0xA3, 7, 0] []).runs (.div 7 0) ∧ (Instr.div 7 0).wellFormed = true ∧
      ∃ t r, step (start [0xA3, 7, 0] []) = .next t ∧ t.fault = some r) :=
  ⟨⟨⟨⟨rfl, rfl⟩, _, rfl, rfl⟩, rfl⟩, ⟨⟨⟨rfl, rfl⟩, _, rfl, rfl⟩, rfl⟩, ⟨⟨rfl, rfl⟩, _, rfl, rfl⟩, rfl, _, _, rfl, rfl⟩

theorem witness_DivideByZeroOnlyForZeroDivisor :
    (start [] [(0, 5)]).fault = none ∧
      ∃ t r, exec (.mod 0 7) (start [] [(0, 5), (7, 0)]) = .next t ∧ t.fault = some r ∧ r.kind = .divideByZero :=
  ⟨rfl, _, _, rfl, rfl, rfl⟩

/-- The clauses of PUSH and POP: a re-read past the end, one that names no register, and ones that name R0 and R7. -/
theorem witness_PushStoresAtTheDecrementedPointer :
    256 ≤ (startAt 255 [] []).pc.toNat + 1 ∧
    (memRead (start [0x45, 8] []) ((start [0x45, 8] []).pc.toNat + 1) = .ok 8 ∧ 7 < (8 : Byte).toNat) ∧
    (memRead (start [0x45, 7] []) ((start [0x45, 7] []).pc.toNat + 1) = .ok 7 ∧
      (7 : Byte).toNat = (7 : RegIdx).val ∧ (start [0x45, 7] []).mem.wf = true) ∧
    memRead (startAt 254 [0x46, 0] []) ((startAt 254 [0x46, 0] []).pc.toNat + 1) = .ok 0 :=
  ⟨by decide, ⟨rfl, by decide⟩, ⟨rfl, rfl, rfl⟩, rfl⟩

/-- The same hypotheses, with POP's opcode; its last two clauses are for R7 and for another register. -/
theorem witness_PopTakesTheTopOfTheStack :
    256 ≤ (startAt 255 [] []).pc.toNat + 1 ∧
    (memRead (start [0x46, 8] []) ((start [0x46, 8] []).pc.toNat + 1) = .ok 8 ∧ 7 < (8 : Byte).toNat) ∧
    (memRead (start [0x46, 7] []) ((start [0x46, 7] []).pc.toNat + 1) = .ok 7 ∧ (7 : Byte).toNat = (7 : RegIdx).val) ∧
    (memRead (start [0x46, 6] []) ((start [0x46, 6] []).pc.toNat + 1) = .ok 6 ∧ (6 : Byte).toNat = (6 : RegIdx).val ∧
      (6 : RegIdx) ≠ 7) :=
  ⟨by decide, ⟨rfl, by decide⟩, ⟨rfl, rfl⟩, rfl, rfl, by decide⟩

theorem witness_StackRereadIsTheOperandByte :
    (start [0x45, 3] []).runs (.push 3) ∧ (startAt 253 [0x46, 255] []).runs (.pop 255) :=
  ⟨⟨⟨rfl, rfl⟩, _, rfl, rfl⟩, ⟨rfl, rfl⟩, _, rfl, rfl⟩

theorem witness_PopAfterPushRestoresValueAndPointer :
    let s := start [0x45, 0, 0x46, 6] [(0, 0x99)]
    (0 : RegIdx) ≠ 7 ∧ (6 : RegIdx) ≠ 7 ∧ s.mem.wf = true ∧ s.runs (.push (regByte 0)) ∧
      ∃ t, step s = .next t ∧ t.runs (.pop (regByte 6)) :=
  ⟨by decide, by decide, by decide, ⟨⟨rfl, rfl⟩, _, rfl, rfl⟩, _, rfl, ⟨rfl, rfl⟩, _, rfl, rfl⟩

/-- The pushed byte lands on each of the next fetch's three addresses (2, 3 and 4). -/
theorem witness_NextFetchSeesThePushedByte (sp : Byte) (h : sp = 3 ∨ sp = 4 ∨ sp = 5) :
    let s := start [0x45, 0] [(0, 1), (7, sp)]
    s.mem.wf = true ∧ s.runs (.push (regByte 0)) ∧ s.pushAddr = sp.toNat - 1 ∧
      ∃ t f, step s = .next t ∧ fetch t = .ok f ∧ t.pc.toNat = 2 := by
  rcases h with rfl | rfl | rfl <;> exact ⟨rfl, ⟨⟨rfl, rfl⟩, _, rfl, rfl⟩, rfl, _, _, rfl, rfl, rfl⟩

theorem witness_CallPushesTheReturnAddress :
    (7 : Byte).toNat = (7 : RegIdx).val ∧ 7 < (8 : Byte).toNat ∧ (startAt 253 [0x50, 7] []).mem.wf = true := by decide

theorem witness_RetReturnsAfterTheCall :
    let s := start [0x50, 1, 0, 0x11] [(1, 3)]
    s.mem.wf = true ∧ s.runs (.call (regByte 1)) ∧ ∃ t, step s = .next t ∧ t.runs .ret :=
  ⟨by decide, ⟨⟨rfl, rfl⟩, _, rfl, rfl⟩, _, rfl, ⟨rfl, rfl⟩, _, rfl, rfl⟩

/-- Both guards of JEQ and JNE. -/
theorem witness_conditional_jumps :
    State.reset.flags.e = false ∧ State.reset.flags.e ≠ true ∧
    (State.reset.setFlags ⟨true, false, false⟩).flags.e = true ∧
    (State.reset.setFlags ⟨true, false, false⟩).flags.e ≠ false := by decide

/-- A completed instruction and a faulting one; also for the statements whose hypothesis is a next state of `exec`. -/
theorem witness_PcUpdatesAreTheListOfR17 :
    State.reset.fault = none ∧
    (∃ t, exec (.call 7) State.reset = .next t ∧ t.fault = none) ∧
    (∃ t, exec (.jeq 8) State.reset = .next t ∧ t.fault ≠ none) :=
  ⟨rfl, ⟨_, rfl, rfl⟩, _, rfl, by decide⟩

theorem witness_OnlyCmpWritesFlags :
    (∃ t, exec .nop State.reset = .next t) ∧ (∀ a b, Instr.nop ≠ .cmp a b) ∧
    (∃ t, exec (.cmp 0 7) State.reset = .next t ∧ t.fault = none) :=
  ⟨⟨_, rfl⟩, by simp, _, rfl, rfl⟩

theorem witness_OnlyEqualIsEverRead :
    (⟨false, true, true⟩ : Flags).e = State.reset.flags.e ∧ ∀ r, Instr.nop ≠ .jeq r ∧ Instr.nop ≠ .jne r := by
  simp [State.reset]

theorem witness_OnlyHltWritesRunning : (∃ t, exec .hlt State.reset = .next t) ∧ ∃ t, step State.reset = .next t :=
  ⟨⟨_, rfl⟩, _, rfl⟩

theorem witness_OnlyPrnWritesOutAndNothingReadsIt : ∃ t, exec (.prn 7) State.reset = .next t ∧ t.out = [0xF4] :=
  ⟨_, rfl, rfl⟩

theorem witness_RegistersChangeOnlyAsTheTableSays :
    let s := start [0x46, 6] []
    s.runs (.pop 6) ∧ (∃ t, step s = .next t) ∧ ¬ WritesReg (.pop 6) 5 :=
  ⟨⟨⟨rfl, rfl⟩, _, rfl, rfl⟩, ⟨_, rfl⟩, by simp [WritesReg]⟩

/-- An address beside the one PUSH stores to. -/
theorem witness_MemoryChangesOnlyByPushAndCall :
    let s := start [0x45, 6] []
    (∃ t, step s = .next t) ∧ ¬ (0xF2 = s.pushAddr ∧ ∃ i, s.runs i ∧ StoresByte i) :=
  ⟨⟨_, rfl⟩, fun h => absurd h.1 (by decide)⟩

theorem witness_MemoryReadsTheLatestWrite : State.reset.mem.wf = true ∧ 255 < 256 ∧ 256 ≤ 256 := by decide

theorem witness_CanonicalMemoriesAreDeterminedByTheirCells :
    let m := Memory.write (Memory.write [] 9 1) 3 2
    let m' := Memory.write (Memory.write (Memory.write [] 3 2) 9 1) 5 0
    m.wf = true ∧ m'.wf = true ∧ m = m' ∧ ∀ a, Memory.read m a = Memory.read m' a :=
  ⟨rfl, rfl, rfl, fun _ => rfl⟩

theorem witness_StepKeepsTheMachineInvariant :
    let s := startAt 253 [0x45, 0] [(0, 5)]
    s.Inv ∧ ∃ t, step s = .next t :=
  ⟨⟨rfl, by decide, by decide, fun _ h => by cases h⟩, _, rfl⟩

/-- A launch, a halted state it reaches, and the states reached from that one. -/
theorem witness_ReachableStatesSatisfyR28 :
    ∃ s₀ s, launch [0x01] = .next s₀ ∧ Steps s₀ s ∧ s.running = false ∧ Steps s s :=
  ⟨_, _, rfl, .tail (.refl _) rfl, rfl, .refl _⟩

/-- A launch and a faulted state it reaches; also for the clause of ReachableStatesSatisfyR28 about a latched fault. -/
theorem witness_UnsupportedAluOpIsNeverLatched :
    ∃ s₀ s r, launch [0xFF] = .next s₀ ∧ Steps s₀ s ∧ s.fault = some r ∧ s.fault ≠ none ∧ Steps s s :=
  ⟨_, _, _, rfl, .tail (.refl _) rfl, rfl, by simp [takeFault], .refl _⟩

end Sys2Proof.Tests
end

/-! # The state's fields: what an instruction, a step and a run can do to them

SUPPORT. Every fact comes from the inversion lemmas `Laws.exec_next_iff` and `step_cases`. -/

namespace Sys2Proof.Proofs

open Sys2Proof.Machine Sys2Proof.Laws Sys2Proof.Claims

variable {i : Instr} {s t : State}

/-! ## The fields beside memory, the registers and `pc` -/

/-- What a completed instruction does to the fields that few instructions write: `running` is HLT's alone (R21), the
flags are CMP's (R20), OUT is PRN's (R23), and the fault latch is nobody's (R125). -/
structure StatusUpdate (i : Instr) (s t : State) : Prop where
  running : t.running = if i = .hlt then false else s.running
  fault : t.fault = s.fault
  flags : t.flags = s.flags ∨ ∃ a b x y, i = .cmp a b ∧ t.flags = compareFlags x y
  out : t.out = s.out ∨ ∃ (a : Byte) (r : RegIdx), i = .prn a ∧ a.toNat = r.val ∧ t.out = s.out ++ [s.reg r]

theorem statusUpdate_of_unchanged (hi : i ≠ .hlt) (hn : t.running = s.running) (hx : t.fault = s.fault)
    (hf : t.flags = s.flags) (ho : t.out = s.out) : StatusUpdate i s t :=
  ⟨by rw [if_neg hi, hn], hx, .inl hf, .inl ho⟩

/-- Each instruction's effect, by the shape of its operands: only HLT, PRN and CMP are not of the unchanging kind. -/
theorem effect_statusUpdate (h : effect i s t) : StatusUpdate i s t := by
  cases i with
  | hlt => obtain rfl := h; exact ⟨rfl, rfl, .inl rfl, .inl rfl⟩
  | prn a => obtain ⟨r, hr, rfl⟩ := h; exact ⟨rfl, rfl, .inl rfl, .inr ⟨a, r, rfl, hr, rfl⟩⟩
  | cmp a b => obtain ⟨_, _, _, _, rfl⟩ := h; exact ⟨rfl, rfl, .inr ⟨a, b, _, _, rfl, rfl⟩, .inl rfl⟩
  | nop | ret => obtain rfl := h; exact statusUpdate_of_unchanged nofun rfl rfl rfl rfl
  | call | jmp | ldi | inc | dec | not =>
    obtain ⟨_, _, rfl⟩ := h; exact statusUpdate_of_unchanged nofun rfl rfl rfl rfl
  | jeq | jne =>
    obtain ⟨_, _, rfl⟩ := h
    split <;> exact statusUpdate_of_unchanged nofun rfl rfl rfl rfl
  | push | pop | add | sub | mul | and | or | xor | shl | shr =>
    obtain ⟨_, _, _, _, rfl⟩ := h; exact statusUpdate_of_unchanged nofun rfl rfl rfl rfl
  | div | mod => obtain ⟨_, _, _, _, _, rfl⟩ := h; exact statusUpdate_of_unchanged nofun rfl rfl rfl rfl

theorem not_raises_hlt (s : State) (x : Exc) : ¬ raises .hlt s x := id

theorem exec_running (h : exec i s = .next t) : t.running = if i = .hlt then false else s.running := by
  obtain h | ⟨x, hx, rfl⟩ := exec_next_iff.mp h
  · exact (effect_statusUpdate h).running
  · have hi : i ≠ .hlt := fun e => not_raises_hlt s x (e ▸ hx)
    rw [if_neg hi, takeFault_running]

theorem exec_flags (h : exec i s = .next t) :
    t.flags = s.flags ∨ ∃ a b x y, i = .cmp a b ∧ t.flags = compareFlags x y := by
  obtain h | ⟨x, _, rfl⟩ := exec_next_iff.mp h
  · exact (effect_statusUpdate h).flags
  · exact .inl rfl

theorem exec_out (h : exec i s = .next t) :
    t.out = s.out ∨ ∃ (a : Byte) (r : RegIdx), i = .prn a ∧ a.toNat = r.val ∧ t.out = s.out ++ [s.reg r] := by
  obtain h | ⟨x, _, rfl⟩ := exec_next_iff.mp h
  · exact (effect_statusUpdate h).out
  · exact .inl rfl

/-! ## The program counter -/

theorem jumpTo_jumpedTo {a : Byte} {r : RegIdx} (ha : a.toNat = r.val) : JumpedTo a (s.jumpTo (s.reg r)) :=
  ⟨r, ha, zext9_toNat _⟩

/-- A completed instruction updates `pc` by its line of R17's list. -/
theorem effect_pcUpdate (h : effect i s t) : PcUpdate i s t := by
  cases i with
  | nop | hlt => obtain rfl := h; rfl
  | ret => obtain rfl := h; exact zext9_toNat _
  | prn | inc | dec | not | ldi => obtain ⟨_, _, rfl⟩ := h; rfl
  | call | jmp => obtain ⟨r, hr, rfl⟩ := h; exact jumpTo_jumpedTo hr
  | jeq | jne =>
    obtain ⟨r, hr, rfl⟩ := h
    have hj : JumpedTo _ (s.setPc (zext9 (s.reg r))) := jumpTo_jumpedTo hr
    cases he : s.flags.e <;> simp [PcUpdate, he, hj]
  | push | pop | add | sub | mul | cmp | and | or | xor | shl | shr => obtain ⟨_, _, _, _, rfl⟩ := h; rfl
  | div | mod => obtain ⟨_, _, _, _, _, rfl⟩ := h; rfl

theorem jumpedTo_pc_le {r : Byte} (h : JumpedTo r t) : t.pc.toNat ≤ 256 := by
  obtain ⟨rr, _, hpc⟩ := h
  exact hpc ▸ (t.reg rr).isLt.le

theorem pc_add_le {p : PcWord} {w : Nat} (hp : p.toNat ≤ 253) (hw : w ≤ 3) : (p + BitVec.ofNat 9 w).toNat ≤ 256 := by
  simp only [BitVec.toNat_add, BitVec.toNat_ofNat]
  omega

/-- From the `pc` of a successful fetch, R17's list stays in 0..256 (R16). -/
theorem pcUpdate_pc_le (hp : s.pc.toNat ≤ 253) (h : PcUpdate i s t) : t.pc.toNat ≤ 256 := by
  cases i with
  | nop => exact h ▸ pc_add_le (w := 1) hp (by decide)
  | hlt => exact h ▸ hp.trans (by decide)
  | ret => exact h ▸ (s.mem.read (s.reg 7).toNat).isLt.le
  | prn | push | pop | not | inc | dec => exact h ▸ pc_add_le (w := 2) hp (by decide)
  | jmp | call => exact jumpedTo_pc_le h
  | jeq =>
    simp only [PcUpdate] at h
    split at h
    · exact jumpedTo_pc_le h
    · exact h ▸ pc_add_le (w := 2) hp (by decide)
  | jne =>
    simp only [PcUpdate] at h
    split at h
    · exact h ▸ pc_add_le (w := 2) hp (by decide)
    · exact jumpedTo_pc_le h
  | ldi | add | sub | mul | div | mod | and | or | xor | shl | shr | cmp =>
    exact h ▸ pc_add_le (w := 3) hp (by decide)

theorem runs_pc_le (h : s.runs i) : s.pc.toNat ≤ 253 := by
  obtain ⟨_, _, hf, _⟩ := h
  exact (fetch_ok hf).1

theorem exec_pc_le (hp : s.pc.toNat ≤ 253) (h : exec i s = .next t) : t.pc.toNat ≤ 256 := by
  obtain h | ⟨x, _, rfl⟩ := exec_next_iff.mp h
  · exact pcUpdate_pc_le hp (effect_pcUpdate h)
  · exact hp.trans (by decide)

/-! ## Earlier output -/

/-- The state with the values of `o` emitted before everything in its OUT. -/
def withEarlierOut (o : List Byte) (s : State) : State := { s with out := o ++ s.out }

/-- No handler looks at OUT, so an effect is the same after any earlier output. -/
theorem effect_withEarlierOut (o : List Byte) (h : effect i s t) :
    effect i (withEarlierOut o s) (withEarlierOut o t) := by
  cases i with
  | nop | hlt | ret => obtain rfl := h; rfl
  | push | pop => obtain ⟨sel, r, hsel, hr, rfl⟩ := h; exact ⟨sel, r, hsel, hr, rfl⟩
  | prn =>
    obtain ⟨r, hr, rfl⟩ := h
    refine ⟨r, hr, ?_⟩
    simp [withEarlierOut, State.output, State.setPc, State.reg]
  | call | jmp | ldi | inc | dec | not => obtain ⟨r, hr, rfl⟩ := h; exact ⟨r, hr, rfl⟩
  | jeq | jne =>
    obtain ⟨r, hr, rfl⟩ := h
    exact ⟨r, hr, apply_ite (withEarlierOut o) _ _ _⟩
  | add | sub | mul | cmp | and | or | xor | shl | shr =>
    obtain ⟨ra, rb, ha, hb, rfl⟩ := h; exact ⟨ra, rb, ha, hb, rfl⟩
  | div | mod => obtain ⟨ra, rb, ha, hb, hz, rfl⟩ := h; exact ⟨ra, rb, ha, hb, hz, rfl⟩

theorem raises_withEarlierOut (o : List Byte) {x : Exc} (h : raises i s x) : raises i (withEarlierOut o s) x := by
  cases i <;> exact h

theorem exec_withEarlierOut (o : List Byte) (h : exec i s = .next t) :
    exec i (withEarlierOut o s) = .next (withEarlierOut o t) := by
  obtain h | ⟨x, hx, rfl⟩ := exec_next_iff.mp h
  · exact exec_next_iff.mpr (.inl (effect_withEarlierOut o h))
  · exact exec_next_iff.mpr (.inr ⟨x, raises_withEarlierOut o hx, rfl⟩)

/-! ## One step -/

theorem compareFlags_exclusive (x y : Byte) : (compareFlags x y).exclusive := by
  simp only [Flags.exclusive, compareFlags, decide_eq_true_eq, decide_eq_false_iff_not]
  omega

theorem step_pc_le (hp : s.pc.toNat ≤ 256) (h : step s = .next t) : t.pc.toNat ≤ 256 := by
  obtain ⟨_, ⟨i, hi, he⟩ | ⟨x, op, _, rfl⟩ | ⟨_, _, rfl⟩⟩ := step_cases h
  · exact exec_pc_le (runs_pc_le hi) he
  · exact hp
  · exact hp

theorem step_flags_exclusive (hf : s.flags.exclusive) (h : step s = .next t) : t.flags.exclusive := by
  obtain ⟨_, ⟨i, _, he⟩ | ⟨x, op, _, rfl⟩ | ⟨_, _, rfl⟩⟩ := step_cases h
  · obtain e | ⟨_, _, x, y, _, e⟩ := exec_flags he
    · exact e ▸ hf
    · exact e ▸ compareFlags_exclusive x y
  · exact hf
  · exact hf

theorem step_out_grows (h : step s = .next t) : s.out <+: t.out := by
  obtain ⟨_, ⟨i, _, he⟩ | ⟨x, op, _, rfl⟩ | ⟨_, _, rfl⟩⟩ := step_cases h
  · obtain e | ⟨_, r, _, _, e⟩ := exec_out he
    · exact ⟨[], by simp [e]⟩
    · exact ⟨[s.reg r], e.symm⟩
  · exact ⟨[], List.append_nil _⟩
  · exact ⟨[], List.append_nil _⟩

/-! ## Runs -/

/-- What every step keeps, every run keeps. -/
theorem steps_keep {P : State → Prop} (hstep : ∀ s t, P s → step s = .next t → P t) (hs : P s) (h : Steps s t) :
    P t := by
  induction h with
  | refl => exact hs
  | tail _ hlast ih => exact hstep _ _ ih hlast

/-- From a state in which no cycle starts, a run reaches nothing else (R65). -/
theorem steps_of_not_canCycle (hs : ¬ s.canCycle) (h : Steps s t) : t = s :=
  steps_keep (P := (· = s)) (fun _ _ hu hstep => absurd (step_next.mp hstep).1 (hu ▸ hs)) rfl h

theorem steps_out_grows (h : Steps s t) : s.out <+: t.out :=
  steps_keep (P := fun u => s.out <+: u.out) (fun _ _ hu hstep => hu.trans (step_out_grows hstep))
    ⟨[], List.append_nil _⟩ h

theorem launch_next {image : List Byte} (h : launch image = .next s) : s.flags = State.reset.flags ∧ s.pc = 0 := by
  unfold launch loadImage at h
  split at h
  · cases h; exact ⟨rfl, rfl⟩
  · cases h

theorem reachable_pc_le {image : List Byte} {s₀ : State} (h₀ : launch image = .next s₀) (h : Steps s₀ s) :
    s.pc.toNat ≤ 256 :=
  steps_keep (P := fun u => u.pc.toNat ≤ 256) (fun _ _ => step_pc_le) (by simp [(launch_next h₀).2]) h

theorem reachable_flags_exclusive {image : List Byte} {s₀ : State} (h₀ : launch image = .next s₀) (h : Steps s₀ s) :
    s.flags.exclusive :=
  steps_keep (P := fun u => u.flags.exclusive) (fun _ _ => step_flags_exclusive)
    ((launch_next h₀).1 ▸ by decide) h

/-! ## The statements -/

/-- Settles O38: a completed instruction has its line of R17's list, a faulting one only latches. -/
theorem pcUpdatesAreTheListOfR17 : Obligations.PcUpdatesAreTheListOfR17 := by
  intro i s t hs h
  obtain h | ⟨x, _, rfl⟩ := exec_next_iff.mp h
  · have ht : t.fault = none := (effect_statusUpdate h).fault.trans hs
    exact ⟨fun _ => effect_pcUpdate h, fun hne => absurd ht hne⟩
  · exact ⟨nofun, fun _ => rfl⟩

/-- Settles O41, from what `exec` does to `running` and from the loop condition. -/
theorem onlyHltWritesRunning : Obligations.OnlyHltWritesRunning :=
  ⟨rfl, fun _ _ _ => exec_running, fun _ _ h => (step_next.mp h).1⟩

/-- Settles O42: reset, what `exec` does to OUT, PRN with a good register byte, and any earlier output. -/
theorem onlyPrnWritesOutAndNothingReadsIt : Obligations.OnlyPrnWritesOutAndNothingReadsIt := by
  refine ⟨rfl, fun _ _ _ => exec_out, fun a r s hr => ?_, fun i s t o h => ?_⟩
  · exact ⟨_, exec_next_iff.mpr (.inl ⟨r, hr, rfl⟩), rfl⟩
  · exact ⟨_, exec_withEarlierOut o h, rfl⟩

/-- Settles O49: flags and `pc` by the invariants of a run from launch, the bounds of bytes by their width, the three
history clauses by the loop condition and the growth of OUT. -/
theorem reachableStatesSatisfyR28 : Obligations.ReachableStatesSatisfyR28 := by
  intro image s₀ s h₀ h
  obtain ⟨hE, hL⟩ := reachable_flags_exclusive h₀ h
  refine ⟨fun j => Nat.le_of_lt_succ (s.reg j).isLt, fun a => Nat.le_of_lt_succ (s.mem.read a).isLt, ?_, ?_, ?_,
    reachable_pc_le h₀ h, fun t ht => ⟨fun hx => ?_, fun hn => ?_, ?_⟩⟩
  · exact fun ⟨e, l⟩ => by simp [hE e] at l
  · exact fun ⟨e, g⟩ => by simp [hE e] at g
  · exact fun ⟨l, g⟩ => by simp [hL l] at g
  · rw [steps_of_not_canCycle (fun hc => hx hc.2) ht]
  · rw [steps_of_not_canCycle (fun hc => Bool.false_ne_true (hn.symm.trans hc.1)) ht, hn]
  · obtain ⟨new, e⟩ := steps_out_grows ht
    exact ⟨new, e.symm⟩

end Sys2Proof.Proofs

/-! # The ALU: two-register and one-register rules, and the comparison

SUPPORT. A rule of the family has three parts, each proved once for every instruction of its shape: the fault for a bad
register byte, the frame of a register write, and the value. What is left per instruction is its arithmetic on bytes. -/

namespace Sys2Proof.Proofs

open Sys2Proof.Machine Sys2Proof.Laws Sys2Proof.Claims

variable {i : Instr} {s : State} {opcode : Byte}

/-! ## Bad register bytes -/

/-- An instruction that raises OutOfBounds for an operand byte latches it with the first byte of its encoding. -/
theorem raisesReg_of_raises {b : Byte} {operands : List Byte} (henc : encode i = opcode :: operands)
    (h : raises i s (.regOutOfBounds b)) : RaisesReg i s opcode b := by
  obtain ⟨rfl, _⟩ := List.cons.inj henc
  exact exec_next_iff.mpr (.inr ⟨_, h, rfl⟩)

/-- The two fault clauses of an instruction that checks two register operand bytes in order (R127). -/
theorem raisesReg_first_else_second {a b : Byte} {operands : List Byte} (henc : encode i = opcode :: operands)
    (h : ∀ x, raisesReg₂ a b x → raises i s x) :
    (7 < a.toNat → RaisesReg i s opcode a) ∧ (a.toNat ≤ 7 → 7 < b.toNat → RaisesReg i s opcode b) :=
  ⟨fun ha => raisesReg_of_raises henc (h _ (.inl ⟨ha, rfl⟩)),
    fun ha hb => raisesReg_of_raises henc (h _ (.inr ⟨ha, hb, rfl⟩))⟩

/-! ## The shared rules -/

/-- Writing one register and moving `pc` changes no other register and no other field. -/
theorem sameBut_setReg_advance (s : State) (r : RegIdx) (v : Byte) (w : Nat) :
    SameBut [r] s ((s.setReg r v).advance w) :=
  ⟨fun _ hj => s.setReg_reg_of_ne v (List.ne_of_not_mem_cons hj), rfl, rfl, rfl, rfl⟩

/-- An instruction that runs `op` on two registers meets the rule of any `f` that gives `op`'s value on numbers. -/
theorem binaryRule_of_effect {mk : Byte → Byte → Instr} {op : Byte → Byte → Byte} {f : Nat → Nat → Nat}
    (henc : ∀ a b, encode (mk a b) = [opcode, a, b])
    (heffect : ∀ a b s t, binaryEffect op a b s t → effect (mk a b) s t)
    (hraises : ∀ a b s x, raisesReg₂ a b x → raises (mk a b) s x)
    (hop : ∀ x y, (op x y).toNat = f x.toNat y.toNat) : BinaryRule mk opcode f := by
  intro a b s
  refine ⟨henc a b, fun ra rb ha hb => ?_, raisesReg_first_else_second (henc a b) (hraises a b s)⟩
  have hrun := exec_next_iff.mpr (.inl (heffect a b s _ ⟨ra, rb, ha, hb, rfl⟩))
  refine ⟨_, hrun, ?_, rfl, sameBut_setReg_advance s ra _ 3, fun _ => rfl⟩
  simp [hop]

/-- As `binaryRule_of_effect`, for an instruction that runs `op` on one register. -/
theorem unaryRule_of_effect {mk : Byte → Instr} {op : Byte → Byte} {f : Nat → Nat}
    (henc : ∀ a, encode (mk a) = [opcode, a])
    (heffect : ∀ a s t, unaryEffect op a s t → effect (mk a) s t)
    (hraises : ∀ a s x, raisesReg a x → raises (mk a) s x)
    (hop : ∀ x, (op x).toNat = f x.toNat) : UnaryRule mk opcode f := by
  intro a s
  refine ⟨henc a, fun r ha => ?_, fun ha => raisesReg_of_raises (henc a) (hraises a s _ ⟨ha, rfl⟩)⟩
  have hrun := exec_next_iff.mpr (.inl (heffect a s _ ⟨r, ha, rfl⟩))
  refine ⟨_, hrun, ?_, rfl, sameBut_setReg_advance s r _ 2, fun _ => rfl⟩
  simp [hop]

/-! ## The values as numbers -/

theorem aluAdd_toNat (x y : Byte) : (aluAdd x y).toNat = (x.toNat + y.toNat) % 256 := BitVec.toNat_ofNat _ 8

theorem aluSub_toNat (x y : Byte) : (aluSub x y).toNat = (256 + x.toNat - y.toNat) % 256 := by
  rw [aluSub_eq, BitVec.toNat_sub, Nat.sub_add_comm y.isLt.le]

theorem aluMul_toNat (x y : Byte) : (aluMul x y).toNat = x.toNat * y.toNat % 256 := BitVec.toNat_ofNat _ 8

theorem aluInc_toNat (x : Byte) : (aluInc x).toNat = (x.toNat + 1) % 256 := BitVec.toNat_ofNat _ 8

theorem aluDec_toNat (x : Byte) : (aluDec x).toNat = (x.toNat + 255) % 256 := by
  rw [aluDec_eq, BitVec.toNat_sub, Nat.add_comm]
  rfl

/-! ## The comparison -/

theorem compareFlags_e (x y : Byte) : (compareFlags x y).e = true ↔ x.toNat = y.toNat := decide_eq_true_iff
theorem compareFlags_l (x y : Byte) : (compareFlags x y).l = true ↔ x.toNat < y.toNat := decide_eq_true_iff
theorem compareFlags_g (x y : Byte) : (compareFlags x y).g = true ↔ y.toNat < x.toNat := decide_eq_true_iff

/-- Trichotomy of the two values: exactly one flag of a comparison is 1 (R84). -/
theorem compareFlags_oneHot (x y : Byte) :
    compareFlags x y = ⟨true, false, false⟩ ∨ compareFlags x y = ⟨false, true, false⟩ ∨
      compareFlags x y = ⟨false, false, true⟩ := by
  obtain h | h | h := Nat.lt_trichotomy x.toNat y.toNat
  · exact .inr (.inl (by simp [compareFlags, h, h.ne, h.not_gt]))
  · exact .inl (by simp [compareFlags, h])
  · exact .inr (.inr (by simp [compareFlags, h, h.ne', h.not_gt]))

/-! ## The statements -/

/-- Settles O14: the two-register rule with the wrapped sum, difference and product. -/
theorem addSubMulWrapModulo256 : Obligations.AddSubMulWrapModulo256 :=
  ⟨binaryRule_of_effect (fun _ _ => rfl) (fun _ _ _ _ => id) (fun _ _ _ _ => id) aluAdd_toNat,
    binaryRule_of_effect (fun _ _ => rfl) (fun _ _ _ _ => id) (fun _ _ _ _ => id) aluSub_toNat,
    binaryRule_of_effect (fun _ _ => rfl) (fun _ _ _ _ => id) (fun _ _ _ _ => id) aluMul_toNat⟩

/-- Settles O15: the two-register rule with the bitwise operations on numbers. -/
theorem andOrXorAreBitwise : Obligations.AndOrXorAreBitwise :=
  ⟨binaryRule_of_effect (fun _ _ => rfl) (fun _ _ _ _ => id) (fun _ _ _ _ => id) BitVec.toNat_and,
    binaryRule_of_effect (fun _ _ => rfl) (fun _ _ _ _ => id) (fun _ _ _ _ => id) BitVec.toNat_or,
    binaryRule_of_effect (fun _ _ => rfl) (fun _ _ _ _ => id) (fun _ _ _ _ => id) BitVec.toNat_xor⟩

/-- Settles O19: the one-register rule with the wrapped successor and predecessor. -/
theorem incDecWrap : Obligations.IncDecWrap :=
  ⟨unaryRule_of_effect (fun _ => rfl) (fun _ _ _ => id) (fun _ _ _ => id) aluInc_toNat,
    unaryRule_of_effect (fun _ => rfl) (fun _ _ _ => id) (fun _ _ _ => id) aluDec_toNat⟩

/-- Settles O20: CMP's effect is to set the comparison's flags, which are its three conditions and one-hot. -/
theorem cmpSetsExactlyOneFlag : Obligations.CmpSetsExactlyOneFlag := by
  intro a b s
  refine ⟨rfl, fun ra rb ha hb => ?_, raisesReg_first_else_second (i := .cmp a b) rfl fun _ => id⟩
  exact ⟨_, exec_next_iff.mpr (.inl ⟨ra, rb, ha, hb, rfl⟩), compareFlags_e _ _, compareFlags_l _ _,
    compareFlags_g _ _, compareFlags_oneHot _ _, rfl, fun _ => rfl, fun _ => rfl, rfl, rfl, rfl⟩

end Sys2Proof.Proofs

/-! # LDI, PRN, HLT and NOP

SUPPORT. Each statement is read off the instruction's effect by `Laws.exec_next_iff`; a bad register byte is the ALU
rules' `raisesReg_of_raises`. -/

namespace Sys2Proof.Proofs

open Sys2Proof.Machine Sys2Proof.Laws Sys2Proof.Claims

variable {s : State}

/-- Moving `pc` changes no register and no other field. -/
theorem sameBut_nil_advance (s : State) (w : Nat) : SameBut [] s (s.advance w) :=
  ⟨fun _ _ => rfl, rfl, rfl, rfl, rfl⟩

/-- A halted state has no next step (R65). -/
theorem step_ne_next_of_halted (h : s.running = false) (u : State) : step s ≠ .next u := by
  intro hstep
  obtain ⟨hrunning, _⟩ := (step_next.mp hstep).1
  exact Bool.false_ne_true (h.symm.trans hrunning)

/-! ## The statements -/

/-- Settles O23: LDI's effect writes its immediate to one register and moves `pc`. -/
theorem ldiLoadsItsImmediate : Obligations.LdiLoadsItsImmediate := by
  intro a imm s
  refine ⟨rfl, fun r ha => ?_, fun ha => raisesReg_of_raises (i := .ldi a imm) rfl ⟨ha, rfl⟩⟩
  have hrun : exec (.ldi a imm) s = .next ((s.setReg r imm).advance 3) := exec_next_iff.mpr (.inl ⟨r, ha, rfl⟩)
  exact ⟨_, hrun, s.setReg_reg_same r imm, rfl, sameBut_setReg_advance s r imm 3, fun _ => rfl⟩

/-- Settles O24: PRN's effect appends the register's value to OUT and moves `pc`. -/
theorem prnAppendsItsRegister : Obligations.PrnAppendsItsRegister := by
  intro a s
  refine ⟨rfl, fun r ha => ?_, fun ha => raisesReg_of_raises (i := .prn a) rfl ⟨ha, rfl⟩⟩
  have hrun : exec (.prn a) s = .next ((s.output (s.reg r)).advance 2) := exec_next_iff.mpr (.inl ⟨r, ha, rfl⟩)
  exact ⟨_, hrun, rfl, rfl, fun _ => rfl, rfl, fun _ => rfl, rfl, rfl⟩

/-- Settles O25: HLT's effect clears `running`, and a halted state has no next step. -/
theorem hltEndsTheRun : Obligations.HltEndsTheRun := by
  refine ⟨rfl, fun s => ?_⟩
  have hrun : exec .hlt s = .next s.halt := exec_next_iff.mpr (.inl rfl)
  exact ⟨_, hrun, rfl, rfl, fun _ => rfl, rfl, fun _ => rfl, rfl, rfl, step_ne_next_of_halted s.halt_running⟩

/-- Settles O26: NOP's effect is to move `pc` by 1. -/
theorem nopAdvancesByOne : Obligations.NopAdvancesByOne := by
  refine ⟨rfl, fun s => ?_⟩
  have hrun : exec .nop s = .next (s.advance 1) := exec_next_iff.mpr (.inl rfl)
  exact ⟨_, hrun, rfl, sameBut_nil_advance s 1, fun _ => rfl⟩

end Sys2Proof.Proofs

/-! # The stack: PUSH and POP

SUPPORT. PUSH and POP take their register from a re-read of the byte at `pc + 1` (R103). What each does once that
byte is known is one state, `afterPush` and `afterPop`; the reads of those two states give every statement of the family. -/

namespace Sys2Proof.Proofs

open Sys2Proof.Machine Sys2Proof.Laws Sys2Proof.Claims

variable {i : Instr} {s : State} {opcode : Byte}

/-! ## The instruction a cycle runs -/

/-- A cycle that runs an instruction is that instruction's handler (R60, R64). -/
theorem step_of_runs (h : s.runs i) : step s = exec i s := by
  obtain ⟨hcan, triplet, hfetch, hdecode⟩ := h
  simp [step_of_canCycle hcan, cycle, hfetch, dispatchAndExecute, hdecode]

/-- The decoder hands an instruction as many of the two candidate operand bytes as its format has (R52). -/
theorem operandBytes_build (m : Mnemonic) (opa opb : Byte) :
    operandBytes (build m opa opb) = [opa, opb].take (m.format.length - 1) := by
  cases m <;> rfl

/-- The byte at `pc + 1` is readable in a cycle and is the first operand byte of the instruction it runs (R62). -/
theorem memRead_operand_of_runs {b : Byte} {rest : List Byte} (h : s.runs i) (hoperands : operandBytes i = b :: rest) :
    memRead s (s.pc.toNat + 1) = .ok b := by
  have hpc := runs_pc_le h
  obtain ⟨_, triplet, hfetch, hdecode⟩ := h
  obtain ⟨_, rfl⟩ := fetch_ok hfetch
  obtain ⟨m, _, rfl⟩ := decodeTriplet_ok.mp hdecode
  have hbyte : s.mem.read (s.pc.toNat + 1) = b := by
    rw [operandBytes_build] at hoperands
    cases hlen : m.format.length - 1 with
    | zero => simp [hlen] at hoperands
    | succ n =>
      rw [hlen, List.take_succ_cons] at hoperands
      exact (List.cons.inj hoperands).1
  exact memRead_ok.mpr ⟨by omega, hbyte⟩

/-! ## The push that PUSH and CALL share, and the pointer's arithmetic -/

theorem byte_sub_one_toNat (x : Byte) : (x - 1).toNat = (x.toNat + 255) % 256 := by
  rw [← aluDec_eq, aluDec_toNat]

theorem byte_add_one_toNat (x : Byte) : (x + 1).toNat = (x.toNat + 1) % 256 := by
  rw [← aluInc_eq, aluInc_toNat]

/-- A push changes no register but the stack pointer, whatever byte it stores and wherever `pc` goes. -/
theorem sameBut_decSp_store_setPc (s : State) (v : Byte) (p : PcWord) :
    SameBut [7] s ((s.decSp.store s.pushAddr v).setPc p) :=
  sameBut_setReg_advance s 7 (s.reg 7 - 1) 0

/-- The byte a push stores reads back at the stack pointer (R100: a full stack). -/
theorem read_decSp_store_same (h : s.mem.wf = true) (v : Byte) :
    (s.decSp.store s.pushAddr v).mem.read s.pushAddr = v :=
  Memory.read_write_same h s.pushAddr v

theorem read_decSp_store_of_ne {a : Nat} (h : a ≠ s.pushAddr) (v : Byte) :
    (s.decSp.store s.pushAddr v).mem.read a = s.mem.read a :=
  Memory.read_write_of_ne s.mem v h

/-! ## The handlers once the register is known -/

/-- The state after a PUSH of register `r`. -/
def afterPush (s : State) (r : RegIdx) : State := (s.decSp.store s.pushAddr (s.decSp.reg r)).advance 2

/-- The state after a POP into register `r`. -/
def afterPop (s : State) (r : RegIdx) : State := (s.setReg r (s.mem.read s.sp.toNat)).incSp.advance 2

section
variable {sel : Byte} {r : RegIdx} (hsel : memRead s (s.pc.toNat + 1) = .ok sel) (hr : sel.toNat = r.val)
include hsel hr

theorem exec_push_of_reread (a : Byte) : exec (.push a) s = .next (afterPush s r) :=
  exec_next_iff.mpr (.inl ⟨sel, r, hsel, hr, rfl⟩)

theorem exec_pop_of_reread (a : Byte) : exec (.pop a) s = .next (afterPop s r) :=
  exec_next_iff.mpr (.inl ⟨sel, r, hsel, hr, rfl⟩)

end

/-- The two fault clauses of an instruction that re-reads its register byte. -/
theorem reread_faults {operands : List Byte} (henc : encode i = opcode :: operands)
    (hraises : ∀ x, raisesReread s x → raises i s x) :
    (256 ≤ s.pc.toNat + 1 → exec i s = .next (faulted s .outOfBounds opcode (.mem (s.pc.toNat + 1)))) ∧
    (∀ sel, memRead s (s.pc.toNat + 1) = .ok sel → 7 < sel.toNat → RaisesReg i s opcode sel) := by
  refine ⟨fun hpc => ?_, fun sel hsel hbad =>
    raisesReg_of_raises henc (hraises _ (.inr ⟨sel, hsel, hbad, rfl⟩))⟩
  obtain ⟨rfl, _⟩ := List.cons.inj henc
  exact exec_next_iff.mpr (.inr ⟨_, hraises _ (.inl (memRead_of_ge s hpc)), rfl⟩)

/-! ## Reads of the two states -/

theorem afterPush_sp (s : State) (r : RegIdx) : (afterPush s r).reg 7 = s.reg 7 - 1 := s.setReg_reg_same 7 _

theorem pushAddr_eq_afterPush_sp (s : State) (r : RegIdx) : s.pushAddr = ((afterPush s r).reg 7).toNat := rfl

/-- The cell at the pointer holds the register's value after the decrement (D21). -/
theorem afterPush_top (h : s.mem.wf = true) (r : RegIdx) :
    (afterPush s r).mem.read s.pushAddr = (afterPush s r).reg r :=
  read_decSp_store_same h _

/-- PUSH leaves every register but the stack pointer. -/
theorem afterPush_reg_of_ne {r j : RegIdx} (h : j ≠ 7) : (afterPush s r).reg j = s.reg j := s.setReg_reg_of_ne _ h

/-- The increment acts on the stack pointer as the assignment before it left it (D21). -/
theorem afterPop_sp (s : State) (r : RegIdx) :
    (afterPop s r).reg 7 = (s.setReg r (s.mem.read (s.reg 7).toNat)).reg 7 + 1 :=
  State.setReg_reg_same _ 7 _

theorem afterPop_sp_of_ne {r : RegIdx} (h : r ≠ 7) : (afterPop s r).reg 7 = s.reg 7 + 1 := by
  rw [afterPop_sp, s.setReg_reg_of_ne _ h.symm]

theorem afterPop_reg_of_ne {r : RegIdx} (h : r ≠ 7) : (afterPop s r).reg r = s.mem.read (s.reg 7).toNat :=
  (State.setReg_reg_of_ne _ _ h).trans (s.setReg_reg_same r _)

/-- POP writes its register and the stack pointer, no other. -/
theorem sameBut_afterPop (s : State) (r : RegIdx) : SameBut [r, 7] s (afterPop s r) := by
  refine ⟨fun j hj => ?_, rfl, rfl, rfl, rfl⟩
  obtain ⟨hr, h7⟩ : j ≠ r ∧ j ≠ 7 := by simpa using hj
  exact (State.setReg_reg_of_ne _ _ h7).trans (s.setReg_reg_of_ne _ hr)

/-! ## The statements -/

/-- Settles O30: the pointer goes down and up again, and POP reads the cell PUSH stored to. -/
theorem popAfterPushRestoresValueAndPointer : Obligations.PopAfterPushRestoresValueAndPointer := by
  intro r r' s t hr hr' hwf hpush hstep hpop
  have hs : step s = .next (afterPush s r) :=
    (step_of_runs hpush).trans (exec_push_of_reread (memRead_operand_of_runs hpush rfl) (regByte_toNat r) _)
  obtain rfl : t = afterPush s r := by simpa [hstep] using hs
  have ht : step (afterPush s r) = .next (afterPop (afterPush s r) r') :=
    (step_of_runs hpop).trans (exec_pop_of_reread (memRead_operand_of_runs hpop rfl) (regByte_toNat r') _)
  refine ⟨_, ht, ?_, ?_⟩
  · rw [afterPop_sp_of_ne hr', afterPush_sp, BitVec.sub_add_cancel]
  · rw [afterPop_reg_of_ne hr', ← pushAddr_eq_afterPush_sp, afterPush_top hwf, afterPush_reg_of_ne hr]

/-- Settles O27: the re-read's two faults, else the state after the PUSH. -/
theorem pushStoresAtTheDecrementedPointer : Obligations.PushStoresAtTheDecrementedPointer := by
  intro a sel s
  obtain ⟨hpast, hbad⟩ := reread_faults (i := .push a) (s := s) rfl fun _ => id
  refine ⟨rfl, hpast, hbad sel, fun r hsel hr hwf => ⟨_, exec_push_of_reread hsel hr a, ?_⟩⟩
  have hsp : ((afterPush s r).reg 7).toNat = ((s.reg 7).toNat + 255) % 256 := by
    rw [afterPush_sp, byte_sub_one_toNat]
  exact ⟨hsp, pushAddr_eq_afterPush_sp s r, afterPush_top hwf r, fun _ ha => read_decSp_store_of_ne ha _, rfl,
    sameBut_decSp_store_setPc s _ _⟩

/-- Settles O28: the re-read's two faults, else the state after the POP, for R7 and for any other register. -/
theorem popTakesTheTopOfTheStack : Obligations.PopTakesTheTopOfTheStack := by
  intro a sel s
  obtain ⟨hpast, hbad⟩ := reread_faults (i := .pop a) (s := s) rfl fun _ => id
  refine ⟨rfl, hpast, hbad sel, fun r hsel hr => ⟨_, exec_pop_of_reread hsel hr a, fun hne => ?_, ?_, rfl,
    sameBut_afterPop s r, fun _ => rfl⟩⟩
  · exact ⟨afterPop_reg_of_ne hne, by rw [afterPop_sp_of_ne hne, byte_add_one_toNat]⟩
  · rintro rfl
    rw [afterPop_sp, State.setReg_reg_same, byte_add_one_toNat]

/-- Settles O29: `r` is the first operand byte of both instructions. -/
theorem stackRereadIsTheOperandByte : Obligations.StackRereadIsTheOperandByte := by
  rintro s r (h | h)
  · exact memRead_operand_of_runs h rfl
  · exact memRead_operand_of_runs h rfl

end Sys2Proof.Proofs

/-! # Control transfer: CALL, RET, JMP, JEQ and JNE

SUPPORT. CALL is the stack family's push followed by a jump, RET a jump followed by the pointer's increment; each is one
state, `afterCall` and `afterRet`. JEQ and JNE are one rule with two guards. -/

namespace Sys2Proof.Proofs

open Sys2Proof.Machine Sys2Proof.Laws Sys2Proof.Claims

variable {s : State} {opcode : Byte}

/-! ## CALL and RET as states -/

/-- The state after a CALL of register `r`. -/
def afterCall (s : State) (r : RegIdx) : State :=
  (s.decSp.store s.pushAddr (BitVec.ofNat 8 (s.pc.toNat + 2))).jumpTo (s.decSp.reg r)

/-- The state after a RET. -/
def afterRet (s : State) : State := (s.jumpTo (s.mem.read s.sp.toNat)).incSp

theorem exec_call_of_regByte {a : Byte} {r : RegIdx} (ha : a.toNat = r.val) :
    exec (.call a) s = .next (afterCall s r) :=
  exec_next_iff.mpr (.inl ⟨r, ha, rfl⟩)

theorem exec_ret (s : State) : exec .ret s = .next (afterRet s) := exec_next_iff.mpr (.inl rfl)

/-! ## Reads of the two states -/

theorem afterCall_sp (s : State) (r : RegIdx) : (afterCall s r).reg 7 = s.reg 7 - 1 := s.setReg_reg_same 7 _

theorem pushAddr_eq_afterCall_sp (s : State) (r : RegIdx) : s.pushAddr = ((afterCall s r).reg 7).toNat := rfl

/-- The target is the register's value after the decrement (D21). -/
theorem afterCall_pc_toNat (s : State) (r : RegIdx) : (afterCall s r).pc.toNat = ((afterCall s r).reg r).toNat :=
  zext9_toNat _

/-- The cell at the pointer holds the return address, narrowed to a byte (log 18). -/
theorem afterCall_top_toNat (h : s.mem.wf = true) (r : RegIdx) :
    ((afterCall s r).mem.read s.pushAddr).toNat = (s.pc.toNat + 2) % 256 :=
  (congrArg BitVec.toNat (read_decSp_store_same h _)).trans (BitVec.toNat_ofNat _ 8)

theorem afterRet_sp (s : State) : (afterRet s).reg 7 = s.reg 7 + 1 := State.setReg_reg_same _ 7 _

theorem afterRet_pc_toNat (s : State) : (afterRet s).pc.toNat = (s.mem.read (s.reg 7).toNat).toNat := zext9_toNat _

/-! ## Jumps -/

/-- A jump changes no register and no other field. -/
theorem sameBut_nil_jumpTo (s : State) (v : Byte) : SameBut [] s (s.jumpTo v) :=
  ⟨fun _ _ => rfl, rfl, rfl, rfl, rfl⟩

/-- The state after a conditional jump to register `r`, taken when the Equal flag is `guard` (R68). -/
def afterCondJump (guard : Bool) (s : State) (r : RegIdx) : State :=
  if s.flags.e = guard then s.jumpTo (s.reg r) else s.advance 2

theorem afterCondJump_of_eq {guard : Bool} (h : s.flags.e = guard) (r : RegIdx) :
    afterCondJump guard s r = s.jumpTo (s.reg r) :=
  if_pos h

theorem afterCondJump_of_ne {guard : Bool} (h : s.flags.e ≠ guard) (r : RegIdx) :
    afterCondJump guard s r = s.advance 2 :=
  if_neg h

theorem jeq_effect {a : Byte} {r : RegIdx} (ha : a.toNat = r.val) : effect (.jeq a) s (afterCondJump true s r) :=
  ⟨r, ha, rfl⟩

/-- JNE's guard is the negated Equal flag, which is 1 exactly when the flag is 0 (R115). -/
theorem jne_effect {a : Byte} {r : RegIdx} (ha : a.toNat = r.val) : effect (.jne a) s (afterCondJump false s r) :=
  ⟨r, ha, by simp [afterCondJump]⟩

/-- An instruction with this effect and one register operand byte meets the conditional jump's rule. -/
theorem conditionalJumpRule_of_effect {mk : Byte → Instr} {guard : Bool}
    (henc : ∀ a, encode (mk a) = [opcode, a])
    (heffect : ∀ (a : Byte) (s : State) (r : RegIdx), a.toNat = r.val → effect (mk a) s (afterCondJump guard s r))
    (hraises : ∀ a s x, raisesReg a x → raises (mk a) s x) : ConditionalJumpRule mk opcode guard := by
  intro a s
  refine ⟨henc a, fun r ha => ?_, fun ha => raisesReg_of_raises (henc a) (hraises a s _ ⟨ha, rfl⟩)⟩
  refine ⟨_, exec_next_iff.mpr (.inl (heffect a s r ha)), ?_⟩
  by_cases he : s.flags.e = guard
  · rw [afterCondJump_of_eq he]
    exact ⟨fun _ => zext9_toNat _, fun hne => absurd he hne, sameBut_nil_jumpTo s _, fun _ => rfl⟩
  · rw [afterCondJump_of_ne he]
    exact ⟨fun heq => absurd heq he, fun _ => rfl, sameBut_nil_advance s 2, fun _ => rfl⟩

/-! ## The statements -/

/-- Settles O34: RET reads the byte CALL stored, which is exact because a cycle's `pc` is at most 253, and the pointer
goes up by the 1 it went down. -/
theorem retReturnsAfterTheCall : Obligations.RetReturnsAfterTheCall := by
  intro r s t u hwf hcall hstep hret hsp hbyte
  have hs : step s = .next (afterCall s r) :=
    (step_of_runs hcall).trans (exec_call_of_regByte (regByte_toNat r))
  obtain rfl : t = afterCall s r := by simpa [hstep] using hs
  refine ⟨afterRet u, (step_of_runs hret).trans (exec_ret u), ?_, ?_⟩
  · have hpc := runs_pc_le hcall
    rw [afterRet_pc_toNat, hbyte, ← pushAddr_eq_afterCall_sp, afterCall_top_toNat hwf]
    omega
  · rw [afterRet_sp, hsp, afterCall_sp, BitVec.sub_add_cancel]

/-- Settles O32: the fault of a bad register byte, else the state after the CALL. -/
theorem callPushesTheReturnAddress : Obligations.CallPushesTheReturnAddress := by
  intro a s
  refine ⟨rfl, fun ha => raisesReg_of_raises (i := .call a) rfl ⟨ha, rfl⟩, fun r ha hwf =>
    ⟨_, exec_call_of_regByte ha, ?_⟩⟩
  have hsp : ((afterCall s r).reg 7).toNat = ((s.reg 7).toNat + 255) % 256 := by
    rw [afterCall_sp, byte_sub_one_toNat]
  exact ⟨hsp, pushAddr_eq_afterCall_sp s r, afterCall_top_toNat hwf r, fun _ hne => read_decSp_store_of_ne hne _,
    afterCall_pc_toNat s r, sameBut_decSp_store_setPc s _ _⟩

/-- Settles O33: the state after the RET, from any state. -/
theorem retPopsThePc : Obligations.RetPopsThePc := by
  refine ⟨rfl, fun s => ⟨_, exec_ret s, afterRet_pc_toNat s, ?_, ?_, fun _ => rfl⟩⟩
  · rw [afterRet_sp, byte_add_one_toNat]
  · exact sameBut_setReg_advance s 7 (s.reg 7 + 1) 0

/-- Settles O35: JMP's effect is to jump to the register's value. -/
theorem jmpLoadsThePc : Obligations.JmpLoadsThePc := by
  intro a s
  refine ⟨rfl, fun r ha => ?_, fun ha => raisesReg_of_raises (i := .jmp a) rfl ⟨ha, rfl⟩⟩
  have hrun : exec (.jmp a) s = .next (s.jumpTo (s.reg r)) := exec_next_iff.mpr (.inl ⟨r, ha, rfl⟩)
  exact ⟨_, hrun, zext9_toNat _, sameBut_nil_jumpTo s _, fun _ => rfl⟩

/-- Settles O36: the conditional jump's rule with the Equal flag 1. -/
theorem jeqJumpsIfEqual : Obligations.JeqJumpsIfEqual :=
  conditionalJumpRule_of_effect (fun _ => rfl) (fun _ _ _ => jeq_effect) fun _ _ _ => id

/-- Settles O37: the conditional jump's rule with the Equal flag 0. -/
theorem jneJumpsIfNotEqual : Obligations.JneJumpsIfNotEqual :=
  conditionalJumpRule_of_effect (fun _ => rfl) (fun _ _ _ => jne_effect) fun _ _ _ => id

end Sys2Proof.Proofs

/-! # Exceptions: UnknownOpcode and DivideByZero

SUPPORT. What a fault record says is read off the exception raised. A handler raises OutOfBounds or, in DIV and MOD, a
zero divisor; a fetch raises OutOfBounds; so each of the two kinds has one source. -/

namespace Sys2Proof.Proofs

open Sys2Proof.Machine Sys2Proof.Laws Sys2Proof.Claims

variable {i : Instr} {s t : State} {x : Exc} {r : FaultRecord}

/-! ## What is raised -/

theorem raisesReg_kind {a : Byte} (h : raisesReg a x) : x.kind = .outOfBounds := by
  obtain ⟨_, rfl⟩ := h
  rfl

theorem raisesReg₂_kind {a b : Byte} (h : raisesReg₂ a b x) : x.kind = .outOfBounds := by
  obtain h | ⟨_, h⟩ := h
  · exact raisesReg_kind h
  · exact raisesReg_kind h

theorem raisesReread_kind (h : raisesReread s x) : x.kind = .outOfBounds := by
  obtain h | ⟨_, _, h⟩ := h
  · obtain ⟨_, rfl⟩ := memRead_error.mp h
    rfl
  · exact raisesReg_kind h

/-- A DIV or MOD whose operand bytes name registers and whose divisor register holds 0 (R122). -/
def ZeroDivision (i : Instr) (s : State) (rb : RegIdx) : Prop :=
  ∃ (opa opb : Byte) (ra : RegIdx), (i = .div opa opb ∨ i = .mod opa opb) ∧
    opa.toNat = ra.val ∧ opb.toNat = rb.val ∧ s.reg rb = 0

theorem raises_of_zeroDivision {rb : RegIdx} (h : ZeroDivision i s rb) : raises i s (.divideByZero rb) := by
  obtain ⟨_, _, ra, rfl | rfl, ha, hb, hz⟩ := h <;> exact .inr ⟨ra, rb, ha, hb, hz, rfl⟩

theorem raisesDivide_cases {a b : Byte} (hi : i = .div a b ∨ i = .mod a b) (h : raisesDivide a b s x) :
    x.kind = .outOfBounds ∨ ∃ rb, ZeroDivision i s rb ∧ x = .divideByZero rb := by
  obtain h | ⟨ra, rb, ha, hb, hz, rfl⟩ := h
  · exact .inl (raisesReg₂_kind h)
  · exact .inr ⟨rb, ⟨a, b, ra, hi, ha, hb, hz⟩, rfl⟩

/-- A handler raises OutOfBounds, or DivideByZero of the divisor of a division by zero. -/
theorem raises_cases (h : raises i s x) :
    x.kind = .outOfBounds ∨ ∃ rb, ZeroDivision i s rb ∧ x = .divideByZero rb := by
  cases i with
  | nop | hlt | ret => exact h.elim
  | push | pop => exact .inl (raisesReread_kind h)
  | prn | call | jmp | jeq | jne | inc | dec | not | ldi => exact .inl (raisesReg_kind h)
  | add | sub | mul | and | or | xor | shl | shr | cmp => exact .inl (raisesReg₂_kind h)
  | div => exact raisesDivide_cases (.inl rfl) h
  | mod => exact raisesDivide_cases (.inr rfl) h

/-- No handler raises UnknownOpcode: it belongs to dispatch (R121). -/
theorem raises_kind_ne_unknownOpcode (h : raises i s x) : x.kind ≠ .unknownOpcode := by
  obtain h | ⟨rb, _, rfl⟩ := raises_cases h
  · simp [h]
  · exact nofun

/-- A fetch raises OutOfBounds only (R61). -/
theorem fetch_error_kind {op : Byte} (h : fetch s = .error (x, op)) : x.kind = .outOfBounds := by
  obtain ⟨_, e⟩ | ⟨_, e⟩ | ⟨_, e⟩ | ⟨_, e⟩ := fetch_cases s
  · cases e.symm.trans h
  all_goals
    cases e.symm.trans h
    rfl

/-! ## What is latched -/

/-- A handler that starts with an empty latch and ends with a full one has raised what the record says (R125). -/
theorem exec_latches (hs : s.fault = none) (h : exec i s = .next t) (ht : t.fault = some r) :
    ∃ x, raises i s x ∧ t = takeFault s (opcodeOf i) x ∧ r = ⟨x.kind, s.pc, opcodeOf i, x.info⟩ := by
  obtain h | ⟨x, hx, rfl⟩ := exec_next_iff.mp h
  · have hnone : t.fault = none := (effect_statusUpdate h).fault.trans hs
    cases hnone.symm.trans ht
  · exact ⟨x, hx, rfl, (Option.some.inj ht).symm⟩

/-- A byte that dispatch does not recognise is the opcode of no instruction (R51, R63). -/
theorem dispatch_eq_none_iff_opcodeOf_ne {b : Byte} : dispatch b = none ↔ ∀ i, opcodeOf i ≠ b := by
  rw [dispatch_eq_none]
  refine ⟨fun h i => h (mnemonicOf i), fun h m => ?_⟩
  have hm := h (build m 0 0)
  rwa [opcodeOf, mnemonicOf_build] at hm

/-- A cycle that fetches a byte of no instruction takes the fault of dispatch (R63). -/
theorem step_of_dispatch_eq_none (hcan : s.canCycle) (hpc : s.pc.toNat ≤ 253)
    (hd : dispatch (s.mem.read s.pc.toNat) = none) :
    step s = .next (takeFault s (s.mem.read s.pc.toNat) (.unknownOpcode (s.mem.read s.pc.toNat))) := by
  simp [step_of_canCycle hcan, cycle, fetch_of_le hpc, dispatchAndExecute, decodeTriplet_error.mpr ⟨hd, rfl⟩]

/-! ## The statements -/

/-- Settles O8: of the three things a step can do, neither running an instruction nor a failed fetch raises the kind. -/
theorem unknownOpcodeIsFatal : Obligations.UnknownOpcodeIsFatal := by
  intro s hcan
  refine ⟨fun hpc hno => step_of_dispatch_eq_none hcan hpc (dispatch_eq_none_iff_opcodeOf_ne.mpr hno),
    fun t r h ht hkind => ?_⟩
  obtain ⟨⟨_, hs⟩, ⟨i, _, he⟩ | ⟨x, op, hf, rfl⟩ | ⟨hpc, hd, _⟩⟩ := step_cases h
  · obtain ⟨x, hx, _, rfl⟩ := exec_latches hs he ht
    exact absurd hkind (raises_kind_ne_unknownOpcode hx)
  · obtain rfl := Option.some.inj ht
    cases (fetch_error_kind hf).symm.trans hkind
  · exact ⟨hpc, dispatch_eq_none_iff_opcodeOf_ne.mp hd⟩

/-- Settles O21: a zero divisor after good indices is raised, and is the one source of the kind among the handlers. -/
theorem divideByZeroOnlyForZeroDivisor : Obligations.DivideByZeroOnlyForZeroDivisor := by
  refine ⟨fun a b ra rb s ha hb hz => ?_, fun i s t r hs h ht hkind => ?_⟩
  · have hrun {i : Instr} (hi : i = .div a b ∨ i = .mod a b) :
        exec i s = .next (takeFault s (opcodeOf i) (.divideByZero rb)) :=
      exec_next_iff.mpr (.inr ⟨_, raises_of_zeroDivision ⟨a, b, ra, hi, ha, hb, hz⟩, rfl⟩)
    exact ⟨⟨_, hrun (.inl rfl), rfl, rfl⟩, ⟨_, hrun (.inr rfl), rfl, rfl⟩⟩
  · obtain ⟨x, hx, _, rfl⟩ := exec_latches hs h ht
    obtain hbounds | ⟨rb, ⟨a, b, ra, hi, ha, hb, hz⟩, _⟩ := raises_cases hx
    · cases hbounds.symm.trans hkind
    · exact ⟨a, b, ra, rb, hi, ha, hb, hz⟩

end Sys2Proof.Proofs

/-! # Encoding: decode and encode are inverse, and the opcode table

SUPPORT. The decoder splits the bytes after the opcode at the length of the format. The operand bytes of an instruction
are that first part, and `build` puts them back: the two directions of the round trip (R57). -/

namespace Sys2Proof.Proofs

open Sys2Proof.Machine Sys2Proof.Laws Sys2Proof.Claims

variable {i : Instr} {m : Mnemonic}

/-! ## The parts of an encoding -/

theorem length_operandBytes (i : Instr) : (operandBytes i).length = (mnemonicOf i).format.length - 1 := by
  cases i <;> rfl

/-- An instruction is built again from its table entry and its operand bytes, whatever bytes follow (R52). -/
theorem build_operandBytes_append (i : Instr) (rest : List Byte) :
    build (mnemonicOf i) ((operandBytes i ++ rest).getD 0 0) ((operandBytes i ++ rest).getD 1 0) = i := by
  cases i <;> rfl

theorem format_length_le (f : Format) : f.length ≤ 3 := by
  cases f <;> decide

/-- The decoder's two candidate operand bytes are the front of the list, as far as the list and the format reach. -/
theorem take_candidates {n : Nat} {bs : List Byte} (hn : n ≤ 2) (hlen : n ≤ bs.length) :
    [bs.getD 0 0, bs.getD 1 0].take n = bs.take n := by
  match n, bs, hn, hlen with
  | 0, _, _, _ => rfl
  | 1, _ :: _, _, _ => rfl
  | 2, _ :: _ :: _, _, _ => simp

/-! ## The decoder -/

/-- All that the list decoder can accept: an opcode of the table, followed by at least the bytes of its format. -/
theorem decode_cons_ok {ir : Byte} {bs rest : List Byte} :
    decode (ir :: bs) = .ok (i, rest) ↔ ∃ m, opc m = ir ∧ m.format.length ≤ bs.length + 1 ∧
      build m (bs.getD 0 0) (bs.getD 1 0) = i ∧ bs.drop (m.format.length - 1) = rest := by
  simp only [← dispatch_eq_some]
  cases hd : dispatch ir with
  | none => simp [decode, hd]
  | some m =>
    simp only [decode, hd, Option.some.injEq, exists_eq_left']
    by_cases hlen : bs.length + 1 < m.format.length
    · simp [hlen, Nat.not_le.mpr hlen]
    · simp [hlen, Nat.not_lt.mp hlen]

/-- A table opcode selects its instruction, with the operand bytes its format has (R50, R52). -/
theorem decodeTriplet_opc (m : Mnemonic) (opa opb : Byte) : decodeTriplet (opc m) opa opb = .ok (build m opa opb) :=
  decodeTriplet_ok.mpr ⟨m, rfl, rfl⟩

theorem decode_encode_append (i : Instr) (rest : List Byte) : decode (encode i ++ rest) = .ok (i, rest) := by
  have hlen := length_operandBytes i
  have hfits : (mnemonicOf i).format.length ≤ (operandBytes i ++ rest).length + 1 := by
    rw [List.length_append]
    omega
  exact decode_cons_ok.mpr ⟨mnemonicOf i, rfl, hfits, build_operandBytes_append i rest, List.drop_left' hlen⟩

theorem eq_encode_append_of_decode {bs rest : List Byte} (h : decode bs = .ok (i, rest)) : bs = encode i ++ rest := by
  cases bs with
  | nil => cases h
  | cons ir bs =>
    obtain ⟨m, rfl, hlen, rfl, rfl⟩ := decode_cons_ok.mp h
    have hle := format_length_le m.format
    rw [encode, opcodeOf, mnemonicOf_build, operandBytes_build, take_candidates (by omega) (by omega), List.cons_append,
      List.take_append_drop]

/-! ## The statements -/

/-- Settles O2: the list decoder by the parts of an encoding; the engine's decoder takes the same operand bytes. -/
theorem decodeOfEncodeIsTheInstruction : Obligations.DecodeOfEncodeIsTheInstruction := by
  refine fun i rest => ⟨decode_encode_append i rest, fun ir opa opb h => ?_⟩
  obtain ⟨rfl, hoperands : operandBytes i ++ rest = [opa, opb]⟩ := List.cons.inj h
  have hbuild := build_operandBytes_append i rest
  rw [hoperands] at hbuild
  exact decodeTriplet_ok.mpr ⟨mnemonicOf i, rfl, hbuild⟩

/-- Settles O3: accepted bytes split into opcode, operand bytes and rest; an opcode of no instruction has no table
entry. -/
theorem decodedBytesAreTheEncoding : Obligations.DecodedBytesAreTheEncoding :=
  ⟨fun _ _ _ => eq_encode_append_of_decode,
    fun _ _ _ h => decodeTriplet_error.mpr ⟨dispatch_eq_none_iff_opcodeOf_ne.mpr h, rfl⟩⟩

/-- Settles O1: each byte of R50's column is its row's `opc`. -/
theorem opcodeTableRowsDecode : Obligations.OpcodeTableRowsDecode := by
  have row := decodeTriplet_opc
  refine fun x y => ⟨⟨row .nop x y, row .hlt x y, row .ret x y⟩, ⟨row .push x y, row .pop x y, row .prn x y,
    row .call x y, row .jmp x y, row .jeq x y, row .jne x y, row .inc x y, row .dec x y, row .not x y⟩,
    row .ldi x y, row .add x y, row .sub x y, row .mul x y, row .div x y, row .mod x y, row .cmp x y, row .and x y,
    row .or x y, row .xor x y, row .shl x y, row .shr x y⟩

end Sys2Proof.Proofs

/-! # Memory, registers and flags: what an instruction and a step can do to them

SUPPORT. Two more readings of `Laws.effect`: the cell that PUSH and CALL store to, and the registers of R15's table; and
how an effect depends on the flags. -/

namespace Sys2Proof.Proofs

open Sys2Proof.Machine Sys2Proof.Laws Sys2Proof.Claims

variable {i : Instr} {s t : State}

/-! ## Memory -/

/-- A completed instruction leaves memory, or is PUSH or CALL and stores one byte at the decremented pointer (R32). -/
theorem effect_mem (h : effect i s t) :
    t.mem = s.mem ∨ (StoresByte i ∧ ∃ v, t.mem = s.mem.write s.pushAddr v) := by
  cases i with
  | push => obtain ⟨_, _, _, _, rfl⟩ := h; exact .inr ⟨trivial, _, rfl⟩
  | call => obtain ⟨_, _, rfl⟩ := h; exact .inr ⟨trivial, _, rfl⟩
  | nop | hlt | ret => obtain rfl := h; exact .inl rfl
  | prn | jmp | ldi | inc | dec | not => obtain ⟨_, _, rfl⟩ := h; exact .inl rfl
  | jeq | jne => obtain ⟨_, _, rfl⟩ := h; split <;> exact .inl rfl
  | pop | add | sub | mul | cmp | and | or | xor | shl | shr => obtain ⟨_, _, _, _, rfl⟩ := h; exact .inl rfl
  | div | mod => obtain ⟨_, _, _, _, _, rfl⟩ := h; exact .inl rfl

theorem exec_mem (h : exec i s = .next t) :
    t.mem = s.mem ∨ (StoresByte i ∧ ∃ v, t.mem = s.mem.write s.pushAddr v) := by
  obtain h | ⟨x, _, rfl⟩ := exec_next_iff.mp h
  · exact effect_mem h
  · exact .inl rfl

theorem step_mem (h : step s = .next t) :
    t.mem = s.mem ∨ ((∃ i, s.runs i ∧ StoresByte i) ∧ ∃ v, t.mem = s.mem.write s.pushAddr v) := by
  obtain ⟨_, ⟨i, hi, he⟩ | ⟨x, op, _, rfl⟩ | ⟨_, _, rfl⟩⟩ := step_cases h
  · exact (exec_mem he).imp_right fun ⟨hstores, hwrite⟩ => ⟨⟨i, hi, hstores⟩, hwrite⟩
  · exact .inl rfl
  · exact .inl rfl

/-- A push stores to a byte's address, which exists (R31), so every step keeps memory's canonical form. -/
theorem step_mem_wf (hs : s.mem.wf = true) (h : step s = .next t) : t.mem.wf = true := by
  obtain e | ⟨_, v, e⟩ := step_mem h
  · exact e ▸ hs
  · exact e ▸ Memory.write_wf hs v s.decSp.sp.isLt

/-! ## Registers -/

/-- In a cycle a completed instruction leaves every register outside its row of R15's table; that a cycle runs it says
that POP's re-read names the register of its operand byte (R103). -/
theorem effect_reg_of_not_writesReg {j : RegIdx} (hi : s.runs i) (hj : ¬ WritesReg i j) (h : effect i s t) :
    t.reg j = s.reg j := by
  cases i with
  | nop | hlt => obtain rfl := h; rfl
  | ret => obtain rfl := h; exact State.setReg_reg_of_ne _ _ hj
  | push => obtain ⟨_, _, _, _, rfl⟩ := h; exact s.setReg_reg_of_ne _ hj
  | pop a =>
    obtain ⟨hja, hj7⟩ := not_or.mp hj
    obtain ⟨sel, r, hsel, hr, rfl⟩ := h
    obtain rfl : a = sel := Except.ok.inj ((memRead_operand_of_runs hi rfl).symm.trans hsel)
    have hjr : j ≠ r := fun e => hja (e ▸ hr)
    exact (State.setReg_reg_of_ne _ _ hj7).trans (s.setReg_reg_of_ne _ hjr)
  | prn | jmp => obtain ⟨_, _, rfl⟩ := h; rfl
  | call => obtain ⟨_, _, rfl⟩ := h; exact s.setReg_reg_of_ne _ hj
  | jeq | jne => obtain ⟨_, _, rfl⟩ := h; split <;> rfl
  | cmp => obtain ⟨_, _, _, _, rfl⟩ := h; rfl
  | ldi | inc | dec | not =>
    obtain ⟨r, hr, rfl⟩ := h
    exact s.setReg_reg_of_ne _ fun e => hj (e ▸ hr)
  | add | sub | mul | and | or | xor | shl | shr =>
    obtain ⟨r, _, hr, _, rfl⟩ := h
    exact s.setReg_reg_of_ne _ fun e => hj (e ▸ hr)
  | div | mod =>
    obtain ⟨r, _, hr, _, _, rfl⟩ := h
    exact s.setReg_reg_of_ne _ fun e => hj (e ▸ hr)

theorem exec_reg_of_not_writesReg {j : RegIdx} (hi : s.runs i) (hj : ¬ WritesReg i j) (h : exec i s = .next t) :
    t.reg j = s.reg j := by
  obtain h | ⟨x, _, rfl⟩ := exec_next_iff.mp h
  · exact effect_reg_of_not_writesReg hi hj h
  · rfl

/-! ## Flags -/

/-- With other flags, but the same Equal where the instruction reads it, an effect is the same up to the flags it
leaves: CMP writes its own, every other instruction keeps the ones it was given. -/
theorem effect_setFlags {f : Flags} (hf : f.e = s.flags.e ∨ ∀ r, i ≠ .jeq r ∧ i ≠ .jne r) (h : effect i s t) :
    ∃ g, effect i (s.setFlags f) (t.setFlags g) := by
  cases i with
  | nop | hlt | ret => obtain rfl := h; exact ⟨f, rfl⟩
  | push | pop => obtain ⟨sel, r, hsel, hr, rfl⟩ := h; exact ⟨f, sel, r, hsel, hr, rfl⟩
  | prn | call | jmp | ldi | inc | dec | not => obtain ⟨r, hr, rfl⟩ := h; exact ⟨f, r, hr, rfl⟩
  | jeq r | jne r =>
    obtain hf | hf := hf
    · obtain ⟨r, hr, rfl⟩ := h
      refine ⟨f, r, hr, ?_⟩
      rw [State.setFlags_flags, hf]
      exact apply_ite (State.setFlags · f) _ _ _
    · simp at hf
  | cmp =>
    obtain ⟨ra, rb, ha, hb, rfl⟩ := h
    exact ⟨compareFlags (s.reg ra) (s.reg rb), ra, rb, ha, hb, rfl⟩
  | add | sub | mul | and | or | xor | shl | shr =>
    obtain ⟨ra, rb, ha, hb, rfl⟩ := h; exact ⟨f, ra, rb, ha, hb, rfl⟩
  | div | mod => obtain ⟨ra, rb, ha, hb, hz, rfl⟩ := h; exact ⟨f, ra, rb, ha, hb, hz, rfl⟩

/-- No check looks at a flag. -/
theorem raises_setFlags (f : Flags) {x : Exc} (h : raises i s x) : raises i (s.setFlags f) x := by
  cases i <;> exact h

theorem exec_setFlags {f : Flags} (hf : f.e = s.flags.e ∨ ∀ r, i ≠ .jeq r ∧ i ≠ .jne r) (h : exec i s = .next t) :
    ∃ g, exec i (s.setFlags f) = .next (t.setFlags g) := by
  obtain h | ⟨x, hx, rfl⟩ := exec_next_iff.mp h
  · obtain ⟨g, hg⟩ := effect_setFlags hf h
    exact ⟨g, exec_next_iff.mpr (.inl hg)⟩
  · exact ⟨f, exec_next_iff.mpr (.inr ⟨x, raises_setFlags f hx, rfl⟩)⟩

/-! ## A cycle that runs PUSH -/

theorem step_of_runs_push {r : RegIdx} (h : s.runs (.push (regByte r))) : step s = .next (afterPush s r) :=
  (step_of_runs h).trans (exec_push_of_reread (memRead_operand_of_runs h rfl) (regByte_toNat r) _)

/-! ## The statements -/

/-- Settles O44: a step leaves memory or writes the one cell of a push, in PUSH and CALL. -/
theorem memoryChangesOnlyByPushAndCall : Obligations.MemoryChangesOnlyByPushAndCall := by
  intro s t h a ha
  obtain e | ⟨hstores, v, e⟩ := step_mem h
  · rw [e]
  · rw [e, Memory.read_write_of_ne s.mem v fun haddr => ha ⟨haddr, hstores⟩]

/-- Settles O43: the cycle is the instruction's handler, whose effect and whose fault keep to the table. -/
theorem registersChangeOnlyAsTheTableSays : Obligations.RegistersChangeOnlyAsTheTableSays :=
  fun _ _ _ hi h _ hj => exec_reg_of_not_writesReg hi hj ((step_of_runs hi).symm.trans h)

/-- Settles O39: `exec` writes flags in CMP alone, where a comparison is one-hot. -/
theorem onlyCmpWritesFlags : Obligations.OnlyCmpWritesFlags := by
  refine ⟨fun i s t h hi => ?_, fun a b s t hs h ht => ?_, rfl⟩
  · obtain e | ⟨a, b, _, _, rfl, _⟩ := exec_flags h
    · exact e
    · exact absurd rfl (hi a b)
  · obtain ⟨_, _, _, _, rfl⟩ | ⟨x, _, rfl⟩ := exec_next_iff.mp h
    · exact compareFlags_oneHot _ _
    · cases ht

/-- Settles O40: a handler that answers at all answers the same with other flags, up to the flags it leaves. -/
theorem onlyEqualIsEverRead : Obligations.OnlyEqualIsEverRead := by
  intro i s f hf
  obtain ⟨t, ht⟩ := exec_total i s
  obtain ⟨g, hg⟩ := exec_setFlags hf ht
  exact ⟨t, t.setFlags g, ht, hg, rfl⟩

/-- Settles O31: the fetch reads memory at `pc`, `pc + 1` and `pc + 2`, and the pushed byte is in memory. -/
theorem nextFetchSeesThePushedByte : Obligations.NextFetchSeesThePushedByte := by
  intro r s t f hwf hpush hstep hfetch
  obtain rfl : afterPush s r = t := Host.Outcome.next.inj ((step_of_runs_push hpush).symm.trans hstep)
  obtain ⟨_, rfl⟩ := fetch_ok hfetch
  have hread {a : Nat} (ha : a = s.pushAddr) : (afterPush s r).mem.read a = (afterPush s r).reg r :=
    ha ▸ afterPush_top hwf r
  exact ⟨hread, hread, hread⟩

end Sys2Proof.Proofs

/-! # The cycle: how it starts, what it can raise, and what it latches

SUPPORT. A cycle always answers a state. What it latches is read off what it raised; in a cycle the handlers' checks
are two, the register operand bytes and the divisor (`raises_iff_of_runs`), which gives the fault's priority. -/

namespace Sys2Proof.Proofs

open Sys2Proof.Machine Sys2Proof.Laws Sys2Proof.Claims

variable {i : Instr} {s t : State} {x : Exc} {r : FaultRecord} {op : Byte}

/-! ## A cycle that starts answers a state -/

theorem step_of_fetch_error (hcan : s.canCycle) (h : fetch s = .error (x, op)) : step s = .next (takeFault s op x) := by
  simp [step_of_canCycle hcan, cycle, h]

/-- The address out of range is 256 from each of the three `pc` values; 256 itself is the opcode's own (R61, R62). -/
theorem fetch_past_end (hge : 254 ≤ s.pc.toNat) (hle : s.pc.toNat ≤ 256) :
    fetch s = .error (.memOutOfBounds 256, if s.pc.toNat = 256 then 0 else s.mem.read s.pc.toNat) := by
  obtain ⟨hpc, _⟩ | ⟨hpc, hf⟩ | ⟨hpc, hf⟩ | ⟨hpc, hf⟩ := fetch_cases s
  · omega
  · simp [hf, hpc]
  · simp [hf, hpc]
  · simp [hf, show s.pc.toNat = 256 by omega]

/-- Where `pc` leaves room for the fetch and dispatch knows the opcode, the cycle runs its table entry's instruction. -/
theorem runs_build (hcan : s.canCycle) (hpc : s.pc.toNat ≤ 253) {m : Mnemonic}
    (hd : dispatch (s.mem.read s.pc.toNat) = some m) :
    s.runs (build m (s.mem.read (s.pc.toNat + 1)) (s.mem.read (s.pc.toNat + 2))) :=
  ⟨hcan, _, fetch_of_le hpc, decodeTriplet_ok.mpr ⟨m, opc_of_dispatch hd, rfl⟩⟩

theorem step_total (hcan : s.canCycle) : ∃ t, step s = .next t := by
  cases hf : fetch s with
  | error e => exact ⟨_, step_of_fetch_error hcan hf⟩
  | ok triplet =>
    obtain ⟨hpc, _⟩ := fetch_ok hf
    cases hd : dispatch (s.mem.read s.pc.toNat) with
    | none => exact ⟨_, step_of_dispatch_eq_none hcan hpc hd⟩
    | some m =>
      have hruns := runs_build hcan hpc hd
      obtain ⟨t, ht⟩ := exec_total _ s
      exact ⟨t, (step_of_runs hruns).trans ht⟩

theorem runs_unique {j : Instr} (hi : s.runs i) (hj : s.runs j) : i = j := by
  obtain ⟨_, ti, hfi, hdi⟩ := hi
  obtain ⟨_, tj, hfj, hdj⟩ := hj
  obtain rfl := Except.ok.inj (hfi.symm.trans hfj)
  exact Except.ok.inj (hdi.symm.trans hdj)

/-! ## No cycle after the end of a run -/

theorem step_of_latched (h : s.fault = some r) : step s = .fault (.runFaulted r) := by
  simp [step, runEnded, h]

theorem step_of_halted (hfault : s.fault = none) (h : s.running = false) : step s = .fault .runHalted := by
  simp [step, runEnded, hfault, h]

/-! ## What a handler raises in a cycle -/

/-- How many operand bytes of a format name registers: all but LDI's immediate (R47, R48). -/
def registerCount : Format → Nat
  | .z => 0
  | .r => 1
  | .rr => 2
  | .ri => 1

/-- The operand bytes that name registers. -/
def registerBytes (i : Instr) : List Byte := (operandBytes i).take (registerCount (mnemonicOf i).format)

/-- The first register operand byte above 7 (R127). -/
def firstBadByte (i : Instr) : Option Byte := (registerBytes i).find? fun b => decide (7 < b.toNat)

theorem registerBytes_build (m : Mnemonic) (opa opb : Byte) :
    registerBytes (build m opa opb) = [opa, opb].take (registerCount m.format) := by
  cases m <;> rfl

theorem firstBadByte_build (m : Mnemonic) (opa opb : Byte) :
    firstBadByte (build m opa opb) =
      if m.format ≠ .z ∧ 7 < opa.toNat then some opa
      else if m.format = .rr ∧ 7 < opb.toNat then some opb
      else none := by
  rw [firstBadByte, registerBytes_build]
  cases m.format with
  | z => simp [registerCount]
  | r | ri => by_cases ha : 7 < opa.toNat <;> simp [registerCount, ha]
  | rr =>
    by_cases ha : 7 < opa.toNat
    · simp [registerCount, ha]
    · by_cases hb : 7 < opb.toNat <;> simp [registerCount, ha, hb]

theorem wellFormed_eq_all_registerBytes (i : Instr) : i.wellFormed = (registerBytes i).all isRegByte := by
  cases i <;> simp [Instr.wellFormed, registerBytes, operandBytes, registerCount, mnemonicOf, Mnemonic.format]

theorem wellFormed_iff_firstBadByte_eq_none : i.wellFormed = true ↔ firstBadByte i = none := by
  simp [wellFormed_eq_all_registerBytes, firstBadByte, isRegByte, Nat.lt_succ_iff]

/-- The register operand bytes come first, so the first bad one is the first operand byte above 7. -/
theorem find_operandBytes_of_firstBadByte {b : Byte} (h : firstBadByte i = some b) :
    (operandBytes i).find? (fun b => decide (7 < b.toNat)) = some b := by
  rw [← List.take_append_drop (registerCount (mnemonicOf i).format) (operandBytes i), List.find?_append]
  exact Option.or_eq_some_iff.mpr (.inl h)

theorem firstBadByte_gt {b : Byte} (h : firstBadByte i = some b) : 7 < b.toNat := by
  simpa using List.find?_some h

theorem raisesReg_iff {a : Byte} :
    raisesReg a x ↔ ∃ b, [a].find? (fun b => decide (7 < b.toNat)) = some b ∧ x = .regOutOfBounds b := by
  by_cases ha : 7 < a.toNat <;> simp [raisesReg, ha]

theorem raisesReg₂_iff {a b : Byte} :
    raisesReg₂ a b x ↔ ∃ c, [a, b].find? (fun b => decide (7 < b.toNat)) = some c ∧ x = .regOutOfBounds c := by
  by_cases ha : 7 < a.toNat
  · simp [raisesReg₂, raisesReg, ha, Nat.not_le.mpr ha]
  · by_cases hb : 7 < b.toNat <;> simp [raisesReg₂, raisesReg, ha, hb, Nat.not_lt.mp ha]

theorem raisesReread_of_ok {sel : Byte} (h : memRead s (s.pc.toNat + 1) = .ok sel) :
    raisesReread s x ↔ raisesReg sel x := by
  simp [raisesReread, h]

theorem raisesDivide_iff {a b : Byte} (hi : i = .div a b ∨ i = .mod a b) :
    raisesDivide a b s x ↔ raisesReg₂ a b x ∨ ∃ rb, ZeroDivision i s rb ∧ x = .divideByZero rb := by
  refine or_congr_right ⟨?_, ?_⟩
  · rintro ⟨ra, rb, ha, hb, hz, rfl⟩
    exact ⟨rb, ⟨a, b, ra, hi, ha, hb, hz⟩, rfl⟩
  · rintro ⟨rb, ⟨a', b', ra, hi', ha, hb, hz⟩, rfl⟩
    obtain ⟨rfl, rfl⟩ : a = a' ∧ b = b' := by
      obtain rfl | rfl := hi <;> simpa using hi'
    exact ⟨ra, rb, ha, hb, hz, rfl⟩

/-- In a cycle a handler raises OutOfBounds for the first bad register byte, or DivideByZero for a zero divisor, and
nothing else: the re-read of PUSH and POP gives their operand byte (R103). -/
theorem raises_iff_of_runs (h : s.runs i) :
    raises i s x ↔ (∃ b, firstBadByte i = some b ∧ x = .regOutOfBounds b) ∨
      ∃ rb, ZeroDivision i s rb ∧ x = .divideByZero rb := by
  have of_bytes (hi : ∀ a b, ¬ (i = .div a b ∨ i = .mod a b))
      (hbytes : raises i s x ↔ ∃ b, firstBadByte i = some b ∧ x = .regOutOfBounds b) :
      raises i s x ↔ (∃ b, firstBadByte i = some b ∧ x = .regOutOfBounds b) ∨
        ∃ rb, ZeroDivision i s rb ∧ x = .divideByZero rb := by
    refine hbytes.trans (or_iff_left ?_).symm
    rintro ⟨_, ⟨a, b, _, h, _⟩, _⟩
    exact hi a b h
  cases i with
  | nop | hlt | ret => exact of_bytes nofun ⟨False.elim, nofun⟩
  | push | pop =>
    exact of_bytes nofun ((raisesReread_of_ok (memRead_operand_of_runs h rfl)).trans raisesReg_iff)
  | prn | call | jmp | jeq | jne | inc | dec | not | ldi => exact of_bytes nofun raisesReg_iff
  | add | sub | mul | and | or | xor | shl | shr | cmp => exact of_bytes nofun raisesReg₂_iff
  | div => exact (raisesDivide_iff (.inl rfl)).trans (or_congr_left raisesReg₂_iff)
  | mod => exact (raisesDivide_iff (.inr rfl)).trans (or_congr_left raisesReg₂_iff)

theorem build_eq_div {m : Mnemonic} {opa opb a b : Byte} :
    build m opa opb = .div a b ↔ m = .div ∧ opa = a ∧ opb = b := by
  cases m <;> simp [build]

theorem build_eq_mod {m : Mnemonic} {opa opb a b : Byte} :
    build m opa opb = .mod a b ↔ m = .mod ∧ opa = a ∧ opb = b := by
  cases m <;> simp [build]

theorem eq_ofNat_of_toNat_eq {b : Byte} {r : RegIdx} (h : b.toNat = r.val) : r = Fin.ofNat 8 b.toNat := by
  rw [h, Fin.ofNat_val_eq_self]

theorem toNat_eq_ofNat_val {b : Byte} (h : b.toNat ≤ 7) : b.toNat = (Fin.ofNat 8 b.toNat).val :=
  (Nat.mod_eq_of_lt (Nat.lt_succ_of_le h)).symm

theorem le_seven_of_firstBadByte_eq_none {m : Mnemonic} {opa opb : Byte} (hm : m.format = .rr)
    (h : firstBadByte (build m opa opb) = none) : opa.toNat ≤ 7 ∧ opb.toNat ≤ 7 := by
  simpa [firstBadByte, registerBytes_build, hm, registerCount] using h

/-- A DIV or MOD whose register bytes are good divides by zero when the register its second byte names holds 0. -/
theorem zeroDivision_build_iff {m : Mnemonic} {opa opb : Byte} {rb : RegIdx}
    (hgood : firstBadByte (build m opa opb) = none) :
    ZeroDivision (build m opa opb) s rb ↔ (m = .div ∨ m = .mod) ∧ rb = Fin.ofNat 8 opb.toNat ∧ s.reg rb = 0 := by
  simp only [ZeroDivision, build_eq_div, build_eq_mod]
  constructor
  · rintro ⟨_, _, _, ⟨hm, rfl, rfl⟩ | ⟨hm, rfl, rfl⟩, _, hb, hz⟩
    · exact ⟨.inl hm, eq_ofNat_of_toNat_eq hb, hz⟩
    · exact ⟨.inr hm, eq_ofNat_of_toNat_eq hb, hz⟩
  · rintro ⟨hm, rfl, hz⟩
    have hformat : m.format = .rr := by obtain rfl | rfl := hm <;> rfl
    obtain ⟨ha, hb⟩ := le_seven_of_firstBadByte_eq_none hformat hgood
    exact ⟨opa, opb, Fin.ofNat 8 opa.toNat, hm.imp (⟨·, rfl, rfl⟩) (⟨·, rfl, rfl⟩), toNat_eq_ofNat_val ha,
      toNat_eq_ofNat_val hb, hz⟩

/-! ## What a step latches -/

/-- What makes a cycle from `s` raise `x` with `op` as the opcode recorded: a handler's check, a fetch, or dispatch. -/
def CycleRaises (s : State) (op : Byte) (x : Exc) : Prop :=
  (∃ i, s.runs i ∧ op = opcodeOf i ∧ raises i s x) ∨ fetch s = .error (x, op) ∨
    (op = s.mem.read s.pc.toNat ∧ dispatch op = none ∧ x = .unknownOpcode op)

/-- A step that leaves a fault latched took the fault its cycle raised, and did nothing else (R125). -/
theorem step_latches (h : step s = .next t) (ht : t.fault = some r) :
    ∃ op x, CycleRaises s op x ∧ t = takeFault s op x ∧ r = ⟨x.kind, s.pc, op, x.info⟩ := by
  obtain ⟨⟨_, hs⟩, ⟨i, hi, he⟩ | ⟨x, op, hf, rfl⟩ | ⟨_, hd, rfl⟩⟩ := step_cases h
  · obtain ⟨x, hx, heq, hr⟩ := exec_latches hs he ht
    exact ⟨opcodeOf i, x, .inl ⟨i, hi, rfl, hx⟩, heq, hr⟩
  · exact ⟨op, x, .inr (.inl hf), rfl, (Option.some.inj ht).symm⟩
  · exact ⟨_, _, .inr (.inr ⟨rfl, hd, rfl⟩), rfl, (Option.some.inj ht).symm⟩

/-! ## R127's order in a cycle that runs an instruction -/

theorem step_of_raises (hi : s.runs i) (h : raises i s x) : step s = .next (takeFault s (opcodeOf i) x) :=
  (step_of_runs hi).trans (exec_next_iff.mpr (.inr ⟨x, h, rfl⟩))

theorem step_of_firstBadByte (hi : s.runs i) {b : Byte} (h : firstBadByte i = some b) :
    step s = .next (faulted s .outOfBounds (opcodeOf i) (.reg b)) :=
  step_of_raises hi ((raises_iff_of_runs hi).mpr (.inl ⟨b, h, rfl⟩))

theorem step_of_zeroDivision (hi : s.runs i) {rb : RegIdx} (h : ZeroDivision i s rb) :
    step s = .next (faulted s .divideByZero (opcodeOf i) (.divisor rb)) :=
  step_of_raises hi (raises_of_zeroDivision h)

/-- Where no check fails the instruction completes, and the latch stays empty. -/
theorem step_of_no_check_fails (hi : s.runs i) (hgood : firstBadByte i = none)
    (hdivisor : ∀ rb, ¬ ZeroDivision i s rb) : ∃ t, step s = .next t ∧ t.fault = none := by
  obtain ⟨t, ht⟩ := exec_total i s
  refine ⟨t, (step_of_runs hi).trans ht, ?_⟩
  obtain heffect | ⟨x, hx, _⟩ := exec_next_iff.mp ht
  · obtain ⟨⟨_, hfault⟩, _⟩ := hi
    exact (effect_statusUpdate heffect).fault.trans hfault
  · obtain ⟨b, hb, _⟩ | ⟨rb, hz, _⟩ := (raises_iff_of_runs hi).mp hx
    · cases hgood.symm.trans hb
    · exact absurd hz (hdivisor rb)

theorem opcodeOf_build (m : Mnemonic) (opa opb : Byte) : opcodeOf (build m opa opb) = opc m := by
  rw [opcodeOf, mnemonicOf_build]

/-- The register checks, then the divisor, are the end of the spec's chain. -/
theorem step_firstFault_of_dispatch (hcan : s.canCycle) (hpc : s.pc.toNat ≤ 253) {m : Mnemonic}
    (hd : dispatch (s.mem.read s.pc.toNat) = some m) :
    ∃ t, step s = .next t ∧ t.fault = (firstFault s).map fun f => ⟨f.1, s.pc, f.2.1, f.2.2⟩ := by
  have hruns := runs_build hcan hpc hd
  simp only [firstFault, hd, if_neg (show ¬ 256 ≤ s.pc.toNat by omega),
    if_neg (show ¬ 256 ≤ s.pc.toNat + 1 by omega), if_neg (show ¬ 256 ≤ s.pc.toNat + 2 by omega)]
  split
  next ha =>
    have hbad := step_of_firstBadByte hruns ((firstBadByte_build m _ _).trans (if_pos ha))
    exact ⟨_, hbad, by simp [faulted, opcodeOf_build, opc_of_dispatch hd]⟩
  next ha =>
  split
  next hb =>
    have hbad := step_of_firstBadByte hruns ((firstBadByte_build m _ _).trans ((if_neg ha).trans (if_pos hb)))
    exact ⟨_, hbad, by simp [faulted, opcodeOf_build, opc_of_dispatch hd]⟩
  next hb =>
  have hgood := (firstBadByte_build m _ _).trans ((if_neg ha).trans (if_neg hb))
  split
  next hz =>
    have hzero := step_of_zeroDivision hruns ((zeroDivision_build_iff hgood).mpr ⟨hz.1, rfl, hz.2⟩)
    exact ⟨_, hzero, by simp [faulted, opcodeOf_build, opc_of_dispatch hd]⟩
  next hz =>
    refine step_of_no_check_fails hruns hgood fun rb hzero => ?_
    obtain ⟨hm, rfl, hzr⟩ := (zeroDivision_build_iff hgood).mp hzero
    exact hz ⟨hm, hzr⟩

/-! ## The statements -/

/-- Settles O11: the three fetches, then dispatch, then the handler's checks. -/
theorem cycleTakesTheFirstFaultInPriorityOrder : Obligations.CycleTakesTheFirstFaultInPriorityOrder := by
  intro s hcan
  obtain ⟨hpc, _⟩ | ⟨hpc, hf⟩ | ⟨hpc, hf⟩ | ⟨hpc, hf⟩ := fetch_cases s
  · cases hd : dispatch (s.mem.read s.pc.toNat) with
    | none =>
      refine ⟨_, step_of_dispatch_eq_none hcan hpc hd, ?_⟩
      simp [firstFault, hd, show ¬ 256 ≤ s.pc.toNat by omega, show ¬ 256 ≤ s.pc.toNat + 1 by omega,
        show ¬ 256 ≤ s.pc.toNat + 2 by omega, Exc.kind, Exc.info]
    | some m => exact step_firstFault_of_dispatch hcan hpc hd
  · exact ⟨_, step_of_fetch_error hcan hf, by simp [firstFault, hpc, Exc.kind, Exc.info]⟩
  · exact ⟨_, step_of_fetch_error hcan hf, by simp [firstFault, hpc, Exc.kind, Exc.info]⟩
  · exact ⟨_, step_of_fetch_error hcan hf, by simp [firstFault, hpc, Exc.kind, Exc.info]⟩

/-- Settles O6: the three bytes at `pc` are the fetch of a cycle that runs `i`. -/
theorem stepRunsTheDecodedInstruction : Obligations.StepRunsTheDecodedInstruction :=
  fun _ _ hrunning hfault hpc hd => step_of_runs ⟨⟨hrunning, hfault⟩, _, fetch_of_le hpc, hd⟩

/-- Settles O7: the fetch's failure at each of the three addresses. -/
theorem fetchPastTheEndFaults : Obligations.FetchPastTheEndFaults := by
  intro s hcan
  have hstep (hge : 254 ≤ s.pc.toNat) (hle : s.pc.toNat ≤ 256) :=
    step_of_fetch_error hcan (fetch_past_end hge hle)
  refine ⟨fun h => ?_, fun h => ?_, fun h => ?_⟩
  · rw [hstep (by omega) (by omega), if_pos h]
    rfl
  · rw [hstep (by omega) (by omega), if_neg (by omega), h]
    rfl
  · rw [hstep (by omega) (by omega), if_neg (by omega), h]
    rfl

/-- Settles O9: a cycle that starts answers a state, and the two ends of a run have their stops. -/
theorem cycleStartsOnlyWhileRunning : Obligations.CycleStartsOnlyWhileRunning := by
  refine ⟨fun s => ⟨fun ⟨_, h⟩ => (step_next.mp h).1, step_total⟩, ⟨rfl, rfl⟩, fun s hhlt => ?_,
    fun _ _ _ _ => step_of_latched⟩
  obtain ⟨⟨_, hfault⟩, _⟩ := id hhlt
  exact ⟨s.halt, step_of_runs hhlt, rfl, step_of_halted hfault rfl⟩

/-- Settles O10: a handler's effect leaves the latch empty, and `running` is cleared by HLT alone; every fault is taken
in the state the cycle started from. -/
theorem cycleHasOneOfThreeOutcomes : Obligations.CycleHasOneOfThreeOutcomes := by
  intro s hcan
  obtain ⟨t, h⟩ := step_total hcan
  refine ⟨t, h, ?_⟩
  obtain ⟨⟨hrunning, hfault⟩, ⟨i, hi, he⟩ | ⟨x, op, _, rfl⟩ | ⟨_, _, rfl⟩⟩ := step_cases h
  · obtain heffect | ⟨x, _, rfl⟩ := exec_next_iff.mp he
    · have hstatus := effect_statusUpdate heffect
      by_cases hhlt : i = .hlt
      · exact .inr (.inl ⟨by simp [hstatus.running, hhlt], hstatus.fault.trans hfault, hhlt ▸ hi⟩)
      · exact .inl ⟨by simp [hstatus.running, hhlt, hrunning], hstatus.fault.trans hfault,
          fun hr => hhlt (runs_unique hi hr)⟩
    · exact .inr (.inr ⟨_, rfl⟩)
  · exact .inr (.inr ⟨_, rfl⟩)
  · exact .inr (.inr ⟨_, rfl⟩)

/-- Settles O12: what a step latches is a fault taken in the state before. -/
theorem faultEntryChangesOnlyTheLatch : Obligations.FaultEntryChangesOnlyTheLatch := by
  intro s t r h ht
  obtain ⟨op, x, _, rfl, rfl⟩ := step_latches h ht
  exact ⟨rfl, rfl, step_of_latched ht⟩

/-- Settles O13: an ill-formed instruction has a first bad register byte, which its handler raises; a well-formed one
can raise nothing but a zero divisor. -/
theorem registerBytesAboveSevenFault : Obligations.RegisterBytesAboveSevenFault := by
  intro s i hi
  refine ⟨fun hwf => ?_, fun hwf t r b h ht => ?_⟩
  · obtain ⟨b, hb⟩ : ∃ b, firstBadByte i = some b := by
      rw [← Option.ne_none_iff_exists', Ne, ← wellFormed_iff_firstBadByte_eq_none, hwf]
      exact Bool.false_ne_true
    exact ⟨b, find_operandBytes_of_firstBadByte hb, step_of_firstBadByte hi hb⟩
  · obtain ⟨⟨_, hfault⟩, _⟩ := id hi
    obtain ⟨x, hx, _, rfl⟩ := exec_latches hfault ((step_of_runs hi).symm.trans h) ht
    obtain ⟨c, hc, _⟩ | ⟨_, _, rfl⟩ := (raises_iff_of_runs hi).mp hx
    · cases (wellFormed_iff_firstBadByte_eq_none.mp hwf).symm.trans hc
    · exact nofun

end Sys2Proof.Proofs

/-! # Memory, launch and the machine invariant

SUPPORT. Memory's canonical form makes equal memories equal data; loading an image writes its bytes in order. The launch
state meets the machine invariant and every step keeps it, so every reachable state meets it. -/

namespace Sys2Proof.Proofs

open Sys2Proof.Machine Sys2Proof.Laws Sys2Proof.Claims

variable {s t : State} {x : Exc} {op : Byte} {m m' : Memory} {image : List Byte}

/-! ## The canonical form -/

@[simp] theorem read_cons_self (k : Nat) (v : Byte) (m : Memory) : Memory.read ((k, v) :: m) k = v := if_pos rfl

theorem read_cons_of_ne {k a : Nat} (v : Byte) (m : Memory) (h : k ≠ a) : Memory.read ((k, v) :: m) a = m.read a :=
  if_neg h

/-- The first address listed is the lowest whose cell does not read as 0. -/
theorem head_le_of_read_ne_zero {lo k a : Nat} {v : Byte} (h : Memory.wfFrom lo ((k, v) :: m) = true)
    (ha : Memory.read ((k, v) :: m) a ≠ 0) : k ≤ a := by
  obtain ⟨_, hk⟩ := Memory.wfFrom_cons.mp h
  exact Nat.not_lt.mp fun hlt => ha (Memory.read_of_lt (Memory.wfFrom_cons.mpr ⟨le_rfl, hk⟩) hlt)

/-- Canonical lists that read the same have the same first cell, and their tails read the same. -/
theorem eq_of_read_eq {lo lo' : Nat} (h : m.wfFrom lo = true) (h' : m'.wfFrom lo' = true)
    (hread : ∀ a, m.read a = m'.read a) : m = m' := by
  induction m generalizing lo lo' m' with
  | nil =>
    cases m' with
    | nil => rfl
    | cons c m' =>
      obtain ⟨_, _, hv, _⟩ := Memory.wfFrom_cons.mp h'
      exact absurd ((hread c.1).trans (read_cons_self _ _ _)).symm hv
  | cons c m ih =>
    obtain ⟨k, v⟩ := c
    obtain ⟨_, _, hv, hm⟩ := Memory.wfFrom_cons.mp h
    cases m' with
    | nil => exact absurd ((read_cons_self _ _ _).symm.trans (hread k)) hv
    | cons c' m' =>
      obtain ⟨k', v'⟩ := c'
      obtain ⟨_, _, hv', hm'⟩ := Memory.wfFrom_cons.mp h'
      obtain rfl : k = k' := by
        refine Nat.le_antisymm (head_le_of_read_ne_zero h ?_) (head_le_of_read_ne_zero h' ?_)
        · rwa [hread, read_cons_self]
        · rwa [← hread, read_cons_self]
      obtain rfl : v = v' := by simpa using hread k
      have htails (a : Nat) : Memory.read m a = Memory.read m' a := by
        by_cases ha : a < k + 1
        · rw [Memory.read_of_lt hm ha, Memory.read_of_lt hm' ha]
        · have hne : k ≠ a := by omega
          simpa [read_cons_of_ne _ _ hne] using hread a
      rw [ih hm hm' htails]

/-! ## Loading an image -/

theorem read_loadFrom_of_lt {a c : Nat} (bs : List Byte) (h : c < a) : (m.loadFrom a bs).read c = m.read c := by
  induction bs generalizing m a with
  | nil => rfl
  | cons b bs ih => exact (ih (by omega)).trans (Memory.read_write_of_ne m b (by omega))

/-- The cells from `a` upward hold the bytes loaded, and beyond them what they held before (R43). -/
theorem read_loadFrom_add {a : Nat} {bs : List Byte} (h : m.wf = true) (hlen : a + bs.length ≤ Config.memSize)
    (k : Nat) : (m.loadFrom a bs).read (a + k) = bs.getD k (m.read (a + k)) := by
  induction bs generalizing m a k with
  | nil => rfl
  | cons b bs ih =>
    rw [List.length_cons] at hlen
    cases k with
    | zero => exact (read_loadFrom_of_lt bs (by omega)).trans (Memory.read_write_same h a b)
    | succ k =>
      rw [show a + (k + 1) = a + 1 + k by omega]
      exact (ih (Memory.write_wf h b (by omega)) (by omega) k).trans
        (congrArg (bs.getD k) (Memory.read_write_of_ne m b (by omega)))

/-- The state that launching an image gives (R141). -/
def launched (image : List Byte) : State := { State.reset with mem := State.reset.mem.loadFrom 0 image }

theorem launch_of_length_le (h : image.length ≤ 256) : launch image = .next (launched image) := if_pos h

theorem launch_of_length_gt (h : 256 < image.length) : launch image = .refused .imageTooLong :=
  if_neg (Nat.not_le.mpr h)

theorem launched_of_launch (h : launch image = .next s) : image.length ≤ 256 ∧ s = launched image := by
  by_cases hlen : image.length ≤ 256
  · exact ⟨hlen, (Host.Outcome.next.inj ((launch_of_length_le hlen).symm.trans h)).symm⟩
  · cases (launch_of_length_gt (Nat.not_le.mp hlen)).symm.trans h

theorem launched_mem_wf (h : image.length ≤ 256) : (launched image).mem.wf = true :=
  Memory.loadFrom_wf rfl (by rwa [Nat.zero_add])

theorem launched_read (h : image.length ≤ 256) (a : Nat) : (launched image).mem.read a = image.getD a 0 := by
  have hload := read_loadFrom_add (m := State.reset.mem) (a := 0) (bs := image) rfl (by rwa [Nat.zero_add]) a
  rwa [Nat.zero_add] at hload

/-! ## The machine invariant -/

/-- What a cycle raises has the shape R120 gives its kind: a register byte above 7, a divisor that holds 0 in a DIV or
MOD, the address 256, or an opcode of no table entry. -/
theorem cycleRaises_shape (hpc : s.pc.toNat ≤ 256) (h : CycleRaises s op x) :
    FaultRecord.shape ⟨x.kind, s.pc, op, x.info⟩ (takeFault s op x) := by
  obtain ⟨i, hi, rfl, hx⟩ | hf | ⟨_, hd, rfl⟩ := h
  · obtain ⟨b, hb, rfl⟩ | ⟨rb, ⟨_, _, _, hdivision, _, _, hz⟩, rfl⟩ := (raises_iff_of_runs hi).mp hx
    · exact ⟨rfl, firstBadByte_gt hb⟩
    · exact ⟨rfl, hz, hdivision.imp (congrArg opcodeOf) (congrArg opcodeOf)⟩
  · obtain ⟨_, e⟩ | ⟨_, e⟩ | ⟨_, e⟩ | ⟨hge, e⟩ := fetch_cases s <;> cases e.symm.trans hf
    · exact ⟨rfl, rfl⟩
    · exact ⟨rfl, rfl⟩
    · exact ⟨rfl, Nat.le_antisymm hpc hge⟩
  · exact ⟨rfl, rfl, hd⟩

theorem step_faultShape (hpc : s.pc.toNat ≤ 256) (h : step s = .next t) (r : FaultRecord) (ht : t.fault = some r) :
    t.running = true ∧ r.shape t := by
  obtain ⟨⟨hrunning, _⟩, _⟩ := step_next.mp h
  obtain ⟨op, x, hraises, rfl, rfl⟩ := step_latches h ht
  exact ⟨hrunning, cycleRaises_shape hpc hraises⟩

theorem step_keeps_inv (hs : s.Inv) (h : step s = .next t) : t.Inv where
  memWf := step_mem_wf hs.memWf h
  flagsExclusive := step_flags_exclusive hs.flagsExclusive h
  pcBound := step_pc_le hs.pcBound h
  faultShape := step_faultShape hs.pcBound h

theorem launched_inv (h : image.length ≤ 256) : (launched image).Inv where
  memWf := launched_mem_wf h
  flagsExclusive := ⟨nofun, nofun⟩
  pcBound := Nat.zero_le _
  faultShape := nofun

theorem reachable_inv {s₀ : State} (h₀ : launch image = .next s₀) (h : Steps s₀ s) : s.Inv := by
  obtain ⟨hlen, rfl⟩ := launched_of_launch h₀
  exact steps_keep (fun _ _ => step_keeps_inv) (launched_inv hlen) h

theorem kind_ne_unsupportedAluOp_of_shape {r : FaultRecord} (h : r.shape s) : r.kind ≠ .unsupportedAluOp := by
  intro hkind
  simp [FaultRecord.shape, hkind] at h

/-! ## The statements -/

/-- Settles O48: memory, flags, `pc` and the fault's shape are each kept by a step. -/
theorem stepKeepsTheMachineInvariant : Obligations.StepKeepsTheMachineInvariant := fun _ _ => step_keeps_inv

/-- Settles O5: an image that fits is loaded into the empty memory, from address 0. -/
theorem launchLoadsTheImage : Obligations.LaunchLoadsTheImage :=
  fun image => ⟨fun h => ⟨launched image, launch_of_length_le h, launched_read h, launched_mem_wf h, rfl⟩,
    launch_of_length_gt⟩

/-- Settles O45: the primitives are memory's own read and write where the address exists. -/
theorem memoryReadsTheLatestWrite : Obligations.MemoryReadsTheLatestWrite := by
  refine fun s a v hwf => ⟨fun ha => ?_, fun ha => ⟨if_neg (Nat.not_lt.mpr ha), memRead_of_ge s ha⟩⟩
  refine ⟨s.store a v, if_pos ha, rfl, Memory.write_wf hwf v ha, ?_, fun b hb => ?_⟩
  · exact memRead_ok.mpr ⟨ha, Memory.read_write_same hwf a v⟩
  · rw [memRead, memRead, State.store_mem, Memory.read_write_of_ne s.mem v hb]

/-- Settles O46: the canonical form lists the cells that do not read as 0, in order. -/
theorem canonicalMemoriesAreDeterminedByTheirCells : Obligations.CanonicalMemoriesAreDeterminedByTheirCells :=
  fun _ _ => eq_of_read_eq

/-- Settles O50: every reachable state meets the invariant, whose fault shapes leave the kind out. -/
theorem unsupportedAluOpIsNeverLatched : Obligations.UnsupportedAluOpIsNeverLatched := by
  intro image s₀ s r h₀ h hr
  obtain ⟨_, hshape⟩ := (reachable_inv h₀ h).faultShape r hr
  exact kind_ne_unsupportedAluOp_of_shape hshape

/-- Settles O4: the eight registers one by one; every other value is the reset state's own field. -/
theorem resetLeavesTheTableOfValues : Obligations.ResetLeavesTheTableOfValues := by
  have hregs : ∀ j : RegIdx, State.reset.reg j = if j = 7 then 0xF4 else 0 := by decide
  exact ⟨hregs, rfl, rfl, rfl, rfl, rfl, fun _ => rfl⟩

/-- Settles O47: reset is the launch of the empty image. -/
theorem resetMeetsTheMachineInvariant : Obligations.ResetMeetsTheMachineInvariant :=
  launched_inv (image := []) (Nat.zero_le _)

end Sys2Proof.Proofs

/-! # The ALU: shifts, complement and division

SUPPORT. SHL, SHR and NOT meet the two-register and one-register rules with their values as numbers. DIV and MOD meet
the division rule, whose new part is the check of the divisor after both indices (R122). -/

namespace Sys2Proof.Proofs

open Sys2Proof.Machine Sys2Proof.Laws Sys2Proof.Claims

variable {opcode : Byte}

/-! ## The values as numbers -/

theorem aluShl_toNat (x y : Byte) : (aluShl x y).toNat = x.toNat * 2 ^ y.toNat % 256 := BitVec.toNat_ofNat _ 8

theorem aluShr_toNat (x y : Byte) : (aluShr x y).toNat = x.toNat / 2 ^ y.toNat := by
  rw [aluShr_eq, BitVec.toNat_ushiftRight, Nat.shiftRight_eq_div_pow]

theorem aluNot_toNat (x : Byte) : (aluNot x).toNat = 255 - x.toNat := by
  rw [aluNot_eq, BitVec.toNat_not]

theorem aluDiv_toNat (x y : Byte) : (aluDiv x y).toNat = x.toNat / y.toNat := by
  rw [aluDiv_eq, BitVec.toNat_udiv]

theorem aluMod_toNat (x y : Byte) : (aluMod x y).toNat = x.toNat % y.toNat := by
  rw [aluMod_eq, BitVec.toNat_umod]

/-! ## The division rule -/

/-- An instruction that runs `op` on two registers after the divisor's check meets the rule of any `f` that gives `op`'s
value on numbers. -/
theorem divisionRule_of_effect {mk : Byte → Byte → Instr} {op : Byte → Byte → Byte} {f : Nat → Nat → Nat}
    (henc : ∀ a b, encode (mk a b) = [opcode, a, b])
    (heffect : ∀ a b s t, divideEffect op a b s t → effect (mk a b) s t)
    (hraises : ∀ a b s x, raisesDivide a b s x → raises (mk a b) s x)
    (hop : ∀ x y, (op x y).toNat = f x.toNat y.toNat) : DivisionRule mk opcode f := by
  intro a b s
  refine ⟨henc a b, fun ra rb ha hb hz => ?_, fun ra rb ha hb hz => ?_,
    raisesReg_first_else_second (henc a b) fun x hx => hraises a b s x (.inl hx)⟩
  · have hrun := exec_next_iff.mpr (.inl (heffect a b s _ ⟨ra, rb, ha, hb, hz, rfl⟩))
    refine ⟨_, hrun, ?_, rfl, sameBut_setReg_advance s ra _ 3, fun _ => rfl⟩
    simp [hop]
  · obtain ⟨rfl, _⟩ := List.cons.inj (henc a b)
    exact exec_next_iff.mpr (.inr ⟨_, hraises a b s _ (.inr ⟨ra, rb, ha, hb, hz, rfl⟩), rfl⟩)

/-! ## The statements -/

/-- Settles O17: the division rule with the quotient and the remainder of the numbers. -/
theorem divModFloorOrFault : Obligations.DivModFloorOrFault :=
  ⟨divisionRule_of_effect (fun _ _ => rfl) (fun _ _ _ _ => id) (fun _ _ _ _ => id) aluDiv_toNat,
    divisionRule_of_effect (fun _ _ => rfl) (fun _ _ _ _ => id) (fun _ _ _ _ => id) aluMod_toNat⟩

/-- Settles O22, from the results O17 gives and the division law of the numbers. -/
theorem quotientTimesDivisorPlusRemainder : Obligations.QuotientTimesDivisorPlusRemainder := by
  intro a b ra rb s ha hb hz
  obtain ⟨hdivRule, hmodRule⟩ := divModFloorOrFault
  obtain ⟨_, hdiv, _⟩ := hdivRule a b s
  obtain ⟨_, hmod, _⟩ := hmodRule a b s
  obtain ⟨t, ht, hquotient, _⟩ := hdiv ra rb ha hb hz
  obtain ⟨u, hu, hremainder, _⟩ := hmod ra rb ha hb hz
  refine ⟨t, u, ht, hu, ?_, ?_⟩
  · rw [hquotient, hremainder, Nat.div_add_mod']
  · rw [hremainder]
    exact Nat.mod_lt _ (Nat.pos_of_ne_zero fun h => hz (BitVec.eq_of_toNat_eq h))

/-- Settles O16: the two-register rule with the product by and the quotient by a power of 2. -/
theorem shiftsTakeTheWholeCount : Obligations.ShiftsTakeTheWholeCount :=
  ⟨binaryRule_of_effect (fun _ _ => rfl) (fun _ _ _ _ => id) (fun _ _ _ _ => id) aluShl_toNat,
    binaryRule_of_effect (fun _ _ => rfl) (fun _ _ _ _ => id) (fun _ _ _ _ => id) aluShr_toNat⟩

/-- Settles O18: the one-register rule with the complement to 255. -/
theorem notComplementsItsRegister : Obligations.NotComplementsItsRegister :=
  unaryRule_of_effect (fun _ => rfl) (fun _ _ _ => id) (fun _ _ _ => id) aluNot_toNat

end Sys2Proof.Proofs
